-- ==== Sys2Proof/Word.lean ====
section
/-! DEFINITION. The word types of the block: bits, bit sequences, the command word and the register widths. -/

namespace Sys2Proof

/-- A bit; `true` is 1 (00_scope.md R10). -/
abbrev Bit := Bool

/-- A bit sequence, element 0 first (00_scope.md R10); the empty list is `ε`. -/
abbrev Bits := List Bit

/-- A command word (30_encoding.md R70) and the width of `STATUS` (10_state.md R31). -/
abbrev Byte := BitVec 8

/-- The width of `CODE`, `N` and `K` (10_state.md R26 to R28). -/
abbrev Reg16 := BitVec 16

/-- The width of `LEN` (10_state.md R29). -/
abbrev Reg32 := BitVec 32

end Sys2Proof
end

