-- ==== Sys2Proof/Config.lean ====
section
/-! DEFINITION. What is fixed for this machine beside its CodeTable: the default capacity and the
constants of the header format. The spec leaves no result value open, so there is no free value here. -/

namespace Sys2Proof.Config

/-- `CAP`, the capacity in bits of `IN` and of `OUT`; `none` is infinite, the spec's own value
(00_scope.md R8, 10_state.md R25). `State` holds the capacity, so a claim can be made for every one.
DESIGN CHOICE (the spec's D3), log entry 2. -/
def cap : Option Nat := none

/-- The number of bits of a header, "exactly 32 bits" (00_scope.md R7). -/
def hdrBits : Nat := 32

/-- `HDR_REGION`, the length of the encoded header (00_scope.md R7). -/
def hdrRegion : Nat := 96

/-- `MAX_PAYLOAD`, the largest payload length the 16-bit field carries (00_scope.md R9). -/
def maxPayload : Nat := 65535

end Sys2Proof.Config
end

