-- ==== Sys2Proof/Syntax.lean ====
section
/-! DEFINITION. The syntax of the command set: the nine commands of 30_encoding.md R71.
No command has an operand field (R70): every operand stands in a register or in `IN`. -/

namespace Sys2Proof

/-- The nine commands, in the order of the table of 30_encoding.md R71. -/
inductive Instr where
  /-- CTIDX, `parametersByIndex` (40_codetable.md R111). -/
  | ctidx
  /-- CTLEN, `parametersByLength` (40_codetable.md R112). -/
  | ctlen
  /-- ENCODE, `encode` (41_encoder.md R124). -/
  | encode
  /-- HDRBLD, `buildHeader` (42_header_codec.md R136). -/
  | hdrbld
  /-- HDRENC, `encodeHeader` (42_header_codec.md R139). -/
  | hdrenc
  /-- HDRDEC, `decodeHeader` (42_header_codec.md R142). -/
  | hdrdec
  /-- FRMBLD, `buildFrame` (43_frame_assembler.md R151). -/
  | frmbld
  /-- DECODE, `decode` (44_decoder.md R171). -/
  | decode
  /-- FRMPRS, `parseFrame` (45_frame_parser.md R181). -/
  | frmprs
  deriving DecidableEq, Repr

end Sys2Proof
end

