-- ==== Sys2Proof/WellFormed.lean ====
section
/-! DEFINITION. Well-formedness of command words (format C of 30_encoding.md R70): the UNIT names one
of the six components and the FUNC one of that component's functions. A word that is not well formed
is one of the 247 reserved words (R72). -/

namespace Sys2Proof

/-- The two fields of a command word, as 30_encoding.md R70 splits it. -/
structure CommandFields where
  /-- bits 7:4, the component -/
  unit : BitVec 4
  /-- bits 3:0, the function of that component -/
  func : BitVec 4
  deriving DecidableEq, Repr

/-- How many functions each component offers as commands (the rows of 30_encoding.md R71);
0 for a UNIT that names no component. -/
def unitFunctions (unit : BitVec 4) : Nat :=
  match unit.toNat with
  | 0 => 2   -- CodeTable: CTIDX, CTLEN
  | 1 => 1   -- Encoder: ENCODE
  | 2 => 3   -- HeaderCodec: HDRBLD, HDRENC, HDRDEC
  | 3 => 1   -- FrameAssembler: FRMBLD
  | 4 => 1   -- Decoder: DECODE
  | 5 => 1   -- FrameParser: FRMPRS
  | _ => 0

/-- The UNIT names a component (30_encoding.md R70). -/
def CommandFields.unitOk (f : CommandFields) : Bool := f.unit.toNat ≤ 5

/-- The FUNC names a function of that component (30_encoding.md R71). -/
def CommandFields.funcOk (f : CommandFields) : Bool := f.func.toNat < unitFunctions f.unit

/-- The fields are those of one of the nine commands (30_encoding.md R71, R72). -/
def CommandFields.wf (f : CommandFields) : Bool := f.unitOk && f.funcOk

/-- The fields of each command, a row of 30_encoding.md R71 each. -/
def Instr.fields : Instr → CommandFields
  | .ctidx  => ⟨0, 0⟩
  | .ctlen  => ⟨0, 1⟩
  | .encode => ⟨1, 0⟩
  | .hdrbld => ⟨2, 0⟩
  | .hdrenc => ⟨2, 1⟩
  | .hdrdec => ⟨2, 2⟩
  | .frmbld => ⟨3, 0⟩
  | .decode => ⟨4, 0⟩
  | .frmprs => ⟨5, 0⟩

/-- An instruction is well formed when its fields are; a command has no operand that could be
out of range (30_encoding.md R70), so this holds of all nine. -/
def Instr.wf (i : Instr) : Bool := i.fields.wf

end Sys2Proof
end

