-- ==== Sys2Proof/Decode.lean ====
section
/-! DEFINITION. The decoder, total on every command word, and after it the encoder.
A reserved word is rejected by name (30_encoding.md R72). -/

namespace Sys2Proof

/-- Why a command word is rejected. Both are the reserved words of 30_encoding.md R72. -/
inductive DecodeError where
  /-- The UNIT field names no component (30_encoding.md R70). -/
  | reservedUnit
  /-- The UNIT names a component that has no such FUNC (30_encoding.md R71). -/
  | reservedFunc
  deriving DecidableEq, Repr

/-- A row of the command table. -/
structure OpRow where
  mask : Byte
  pattern : Byte
  instr : Instr
  deriving DecidableEq, Repr

/-- The command table, 30_encoding.md R71: "A decoder compares the whole word (mask `0xFF`)." -/
def opTable : List OpRow :=
  [ ⟨0xFF, 0x00, .ctidx⟩,
    ⟨0xFF, 0x01, .ctlen⟩,
    ⟨0xFF, 0x10, .encode⟩,
    ⟨0xFF, 0x20, .hdrbld⟩,
    ⟨0xFF, 0x21, .hdrenc⟩,
    ⟨0xFF, 0x22, .hdrdec⟩,
    ⟨0xFF, 0x30, .frmbld⟩,
    ⟨0xFF, 0x40, .decode⟩,
    ⟨0xFF, 0x50, .frmprs⟩ ]

/-- The word agrees with the row under the row's mask. -/
def OpRow.fits (r : OpRow) (w : Byte) : Bool := w &&& r.mask == r.pattern

/-- UNIT and FUNC of a command word (30_encoding.md R70). -/
def fieldsOf (w : Byte) : CommandFields := ⟨w.extractLsb' 4 4, w.extractLsb' 0 4⟩

/-- The command a word stands for, or the name of the reason why it is reserved
(30_encoding.md R71, R72). -/
def decode (w : Byte) : Except DecodeError Instr :=
  match opTable.find? (·.fits w) with
  | some r => .ok r.instr
  | none => .error (if (fieldsOf w).unitOk then .reservedFunc else .reservedUnit)

/-- The word of a command (30_encoding.md R71, the column "word"). -/
def encode (i : Instr) : Byte :=
  match i with
  | .ctidx  => 0x00
  | .ctlen  => 0x01
  | .encode => 0x10
  | .hdrbld => 0x20
  | .hdrenc => 0x21
  | .hdrdec => 0x22
  | .frmbld => 0x30
  | .decode => 0x40
  | .frmprs => 0x50

/-- The command word in the `nbits` low bits of `w`. Every instruction of this hardware is one byte,
so the bits the table numbers 7..0 are the whole instruction, and a bit above `nbits` is 0. -/
def tableWord (nbits w : Nat) : Byte := BitVec.ofNat 8 (w % 2 ^ nbits)

/-- What the decoder reads from an instruction whose bits are `w`, numbered as
spec/opcode_table.json numbers them; `none` where it refuses. -/
def decodeTableWord (nbits w : Nat) : Option Instr :=
  match decode (tableWord nbits w) with
  | .ok i => some i
  | .error _ => none

end Sys2Proof
end

