-- ==== Sys2Proof/Machine/Bits.lean ====
section
/-! DEFINITION. Bit sequences, field conversion, GF(2) sums and matrices (00_scope.md R10 to R14). -/

namespace Sys2Proof.Machine

/-- `s[i]` (00_scope.md R10). It is 0 past the end, where the spec defines nothing and no rule reads. -/
def bitAt (s : Bits) (i : Nat) : Bit := s.getD i false

/-- `slice(s, a, b)`, the bits `a` to `b - 1` (00_scope.md R10). -/
def slice (s : Bits) (a b : Nat) : Bits := (s.drop a).take (b - a)

/-- `zeros(m)` (00_scope.md R10). -/
def zeros (m : Nat) : Bits := List.replicate m false

/-- `flip(s, p)`, bit `p` inverted and all others kept (00_scope.md R10). -/
def flipBit (s : Bits) (p : Nat) : Bits := s.modify p not

/-- `u16(v)`, most significant bit first (00_scope.md R12, decision D10). -/
def u16 (v : Nat) : Bits := (List.range 16).map fun i => v / 2 ^ (15 - i) % 2 == 1

/-- `val(t)`, the sum of `t[i] * 2^(|t|-1-i)` (00_scope.md R12), the first term taken off. -/
def val : Bits → Nat
  | [] => 0
  | b :: t => b.toNat * 2 ^ t.length + val t

/-- The sum mod 2 of a finite list of bits (`XOR` over a set, 00_scope.md R13); 0 when it is empty. -/
def xorSum : Bits → Bit
  | [] => false
  | b :: t => b ^^ xorSum t

/-- Bit by bit sum mod 2 of two sequences (00_scope.md R13, as 41_encoder.md R127 and
44_decoder.md R161 use it). -/
def xorBits (a b : Bits) : Bits := List.zipWith xor a b

/-- A matrix over GF(2), its rows top to bottom (00_scope.md R14). -/
abbrev Matrix := List Bits

/-- `M[i][j]` (00_scope.md R14). It is 0 outside the matrix, where no rule reads under a valid table. -/
def Matrix.at (M : Matrix) (i j : Nat) : Bit := bitAt (M.getD i []) j

/-- `col(M, j)` of a matrix of `a` rows (00_scope.md R14). -/
def Matrix.col (M : Matrix) (a j : Nat) : Bits := (List.range a).map fun i => M.at i j

/-- A row vector `d` of length `a` times a matrix of shape `a x b` (00_scope.md R14). -/
def vecMul (a b : Nat) (d : Bits) (M : Matrix) : Bits :=
  (List.range b).map fun j => xorSum ((List.range a).map fun i => bitAt d i && M.at i j)

/-- A matrix of shape `a x b` times a column vector `v` of length `b` (00_scope.md R14). -/
def mulVec (a b : Nat) (M : Matrix) (v : Bits) : Bits :=
  (List.range a).map fun i => xorSum ((List.range b).map fun j => M.at i j && bitAt v j)

/-- The matrix has `a` rows of `b` bits each (40_codetable.md R104 (a)). -/
def Matrix.shaped (M : Matrix) (a b : Nat) : Bool :=
  M.length == a && M.all fun row => row.length == b

/-- The consecutive `w`-bit blocks of a sequence, block 0 first:
`slice(s, 0, w)`, `slice(s, w, 2w)`, ... (41_encoder.md R123, 44_decoder.md R169). -/
def blocks (w : Nat) (s : Bits) : List Bits :=
  (List.range (s.length / w)).map fun b => slice s (b * w) ((b + 1) * w)

end Sys2Proof.Machine
end

