-- ==== Sys2Proof/Machine/CodeTable.lean ====
section
/-! DEFINITION. The CodeTable: the four codes, the two lookups, validity, and the reference table
(00_scope.md R6, 40_codetable.md R100 to R110). -/

namespace Sys2Proof.Machine

/-- The four codes, under the names 00_scope.md R6 enumerates. -/
inductive Code where
  | repetition3_1
  | hamming7_4
  | hamming15_11
  | hamming31_26
  deriving DecidableEq, Repr

/-- All four codes, by rising index. -/
def Code.all : List Code := [.repetition3_1, .hamming7_4, .hamming15_11, .hamming31_26]

/-- The code index `c` (40_codetable.md R100). -/
def Code.index : Code → Nat
  | .repetition3_1 => 0
  | .hamming7_4 => 1
  | .hamming15_11 => 2
  | .hamming31_26 => 3

/-- `n(c)`, the codeword length (40_codetable.md R100). -/
def Code.n : Code → Nat
  | .repetition3_1 => 3
  | .hamming7_4 => 7
  | .hamming15_11 => 15
  | .hamming31_26 => 31

/-- `k(c)`, the data bits of a block (40_codetable.md R100). -/
def Code.k : Code → Nat
  | .repetition3_1 => 1
  | .hamming7_4 => 4
  | .hamming15_11 => 11
  | .hamming31_26 => 26

/-- `r(c) = n(c) - k(c)`, the check bits of a codeword (40_codetable.md R100). -/
def Code.r (c : Code) : Nat := c.n - c.k

/-- `byIndex(i)`: exact match or nothing (40_codetable.md R103). -/
def Code.byIndex (i : Nat) : Option Code :=
  match i with
  | 0 => some .repetition3_1
  | 1 => some .hamming7_4
  | 2 => some .hamming15_11
  | 3 => some .hamming31_26
  | _ => none

/-- `byLength(m)`: exact match or nothing, no fallback (40_codetable.md R103, R113). -/
def Code.byLength (m : Nat) : Option Code :=
  match m with
  | 3 => some .repetition3_1
  | 7 => some .hamming7_4
  | 15 => some .hamming15_11
  | 31 => some .hamming31_26
  | _ => none

/-- `HDR_CODE`, the fixed code of every header, index 0 (00_scope.md R7, 42_header_codec.md R135). -/
def hdrCode : Code := .repetition3_1

/-- The two matrices of an entry (40_codetable.md R101, R102). -/
structure CodeEntry where
  /-- the generator matrix, `k x n` -/
  g : Matrix
  /-- the parity-check matrix, `r x n` -/
  h : Matrix
  deriving DecidableEq, Repr

/-- The CodeTable: exactly four entries (10_state.md R22, 40_codetable.md R100). The numbers `n`, `k`
and the index of an entry are fixed (00_scope.md R6) and stand in `Code`. -/
structure CodeTable where
  entry0 : CodeEntry
  entry1 : CodeEntry
  entry2 : CodeEntry
  entry3 : CodeEntry
  deriving DecidableEq, Repr

/-- The entry of a code. -/
def CodeTable.entry (t : CodeTable) : Code → CodeEntry
  | .repetition3_1 => t.entry0
  | .hamming7_4 => t.entry1
  | .hamming15_11 => t.entry2
  | .hamming31_26 => t.entry3

/-- `G(c)`, the internal read `generatorMatrix` (40_codetable.md R101, R114). -/
def CodeTable.gen (t : CodeTable) (c : Code) : Matrix := (t.entry c).g

/-- `H(c)`, the internal read `parityCheckMatrix` (40_codetable.md R102, R114). -/
def CodeTable.par (t : CodeTable) (c : Code) : Matrix := (t.entry c).h

/-- The shapes of a code's two matrices (40_codetable.md R104 (a)). -/
def CodeTable.shapesOk (t : CodeTable) (c : Code) : Bool :=
  (t.gen c).shaped c.k c.n && (t.par c).shaped c.r c.n

/-- The last `k` columns of `G` are the identity (40_codetable.md R104 (b), decision D22). -/
def CodeTable.systematic (t : CodeTable) (c : Code) : Bool :=
  (List.range c.k).all fun i => (List.range c.k).all fun j => (t.gen c).at i (c.r + j) == (i == j)

/-- The `n` columns of `H`, column 0 first. -/
def CodeTable.parCols (t : CodeTable) (c : Code) : List Bits :=
  (List.range c.n).map fun j => (t.par c).col c.r j

/-- The columns of `H` are pairwise different and none is all zero (40_codetable.md R104 (c)). -/
def CodeTable.columnsOk (t : CodeTable) (c : Code) : Bool :=
  decide (t.parCols c).Nodup && !(t.parCols c).contains (zeros c.r)

/-- `G · Hᵗ = 0` (40_codetable.md R104 (d)). -/
def CodeTable.orthogonal (t : CodeTable) (c : Code) : Bool :=
  (List.range c.k).all fun i => (List.range c.r).all fun a =>
    !xorSum ((List.range c.n).map fun j => (t.gen c).at i j && (t.par c).at a j)

/-- `valid(CT)` for one code (40_codetable.md R104). -/
def CodeTable.validAt (t : CodeTable) (c : Code) : Bool :=
  t.shapesOk c && t.systematic c && t.columnsOk c && t.orthogonal c

/-- `valid(CT)` (40_codetable.md R104). -/
def CodeTable.valid (t : CodeTable) : Bool := Code.all.all t.validAt

/-- The list `v` of `n` integers of 40_codetable.md R109: 1, 2, 4, ..., `2^(r-1)`, then every integer
from 3 to `2^r - 1` that is not a power of two, rising. -/
def refColumns (c : Code) : List Nat :=
  (List.range c.r).map (2 ^ ·) ++
    (List.range (2 ^ c.r)).filter fun x => 3 ≤ x && !((List.range c.r).map (2 ^ ·)).contains x

/-- `H(c)` of `REF_CT`: column `j` is `v[j]` in binary, row 0 the least significant bit
(40_codetable.md R109). -/
def refPar (c : Code) : Matrix :=
  (List.range c.r).map fun a => (List.range c.n).map fun j =>
    (refColumns c).getD j 0 / 2 ^ a % 2 == 1

/-- `G(c)` of `REF_CT`: row `i` is `v[r+i]` in binary, least significant bit first, then row `i` of
the identity (40_codetable.md R109). -/
def refGen (c : Code) : Matrix :=
  (List.range c.k).map fun i =>
    ((List.range c.r).map fun j => (refColumns c).getD (c.r + i) 0 / 2 ^ j % 2 == 1) ++
      (List.range c.k).map fun j => i == j

/-- The entry of a code in `REF_CT`. -/
def refEntry (c : Code) : CodeEntry := ⟨refGen c, refPar c⟩

/-- `REF_CT`, the spec's default table (40_codetable.md R109). The matrices of codes 1 to 3 are the
spec's own choice (D8) and say nothing of another table. DESIGN CHOICE, log entry 1. -/
def refTable : CodeTable :=
  ⟨refEntry .repetition3_1, refEntry .hamming7_4, refEntry .hamming15_11, refEntry .hamming31_26⟩

end Sys2Proof.Machine
end

