-- ==== Sys2Proof/Machine/Flags.lean ====
section
/-! DEFINITION. The status register and the five faults (10_state.md R31, 60_exceptions.md R190, R191).
The block has no flags (10_state.md R41); the fields of `STATUS` are all that a command leaves besides
its results. -/

namespace Sys2Proof.Machine

/-- The five faults of the closed taxonomy (60_exceptions.md R190). -/
inductive RaisedFault where
  /-- a code index outside 0..3, or a codeword length other than 3, 7, 15, 31 (R192) -/
  | unsupportedCode
  /-- a payload length above 65535 (R193) -/
  | valueOutOfRange
  /-- a decoded header whose `code_index` is above 3 (R194) -/
  | headerCorrupt
  /-- a nonzero syndrome equal to no column of `H` (R195) -/
  | uncorrectableBlock
  /-- too few bits for a header, a partial block, or a payload shorter than its header says (R196) -/
  | frameTruncated
  deriving DecidableEq, Repr

/-- The outcome of a completed command: exactly six values (60_exceptions.md R191,
93_implementation_defined.md U19). -/
inductive FaultCode where
  | ok
  | raised (f : RaisedFault)
  deriving DecidableEq, Repr

/-- The code of a fault (60_exceptions.md R191, decision D5). -/
def RaisedFault.number : RaisedFault → BitVec 3
  | .unsupportedCode => 1
  | .valueOutOfRange => 2
  | .headerCorrupt => 3
  | .uncorrectableBlock => 4
  | .frameTruncated => 5

/-- The value of `STATUS.FAULT` for an outcome (60_exceptions.md R191). -/
def FaultCode.number : FaultCode → BitVec 3
  | .ok => 0
  | .raised f => f.number

/-- `STATUS.READY`, bit 7 (10_state.md R31). -/
def Status.ready (st : Byte) : Bool := st.getLsbD 7

/-- `STATUS[6:3]`, which read as zero (10_state.md R31). -/
def Status.reserved (st : Byte) : BitVec 4 := st.extractLsb' 3 4

/-- `STATUS.FAULT`, bits 2:0 (10_state.md R31). -/
def Status.fault (st : Byte) : BitVec 3 := st.extractLsb' 0 3

/-- `STATUS.FAULT <- f`, every other bit kept (10_state.md R31). -/
def Status.withFault (st : Byte) (f : BitVec 3) : Byte := st.extractLsb' 3 5 ++ f

/-- `STATUS` after reset (70_reset_and_hazards.md R220): READY as given, all else 0. -/
def Status.atReset (ready : Bool) : Byte := BitVec.ofBool ready ++ (0 : BitVec 7)

end Sys2Proof.Machine
end

