-- ==== Sys2Proof/Machine/Script.lean ====
section
/-! DEFINITION. The lines of a command script: commands, host actions and pseudo-lines
(30_encoding.md R90 to R92). The script is the host's, not the block's (10_state.md R40, R44). -/

namespace Sys2Proof.Machine

/-- The registers an `EXPECT reg = v` line can name (10_state.md R34, 30_encoding.md R91). -/
inductive RegName where
  | code
  | n
  | k
  | len
  | status
  deriving DecidableEq, Repr

/-- One line of a script. -/
inductive Line where
  /-- The host sends a command word, reserved words included (30_encoding.md R71, R72). -/
  | command (w : Byte)
  /-- `IN <- "bits"` (R91). -/
  | setIn (v : Bits)
  /-- `CODE <- v` (R91); the interface carries exactly the register's width (10_state.md R34). -/
  | setCode (v : Reg16)
  /-- `N <- v` (R91). -/
  | setN (v : Reg16)
  /-- `K <- v` (R91). -/
  | setK (v : Reg16)
  /-- `LEN <- v` (R91). -/
  | setLen (v : Reg32)
  /-- `EXPECT reg = v` (R91). -/
  | expectReg (reg : RegName) (v : Nat)
  /-- `EXPECT OUT = "bits"` (R91). -/
  | expectOut (v : Bits)
  /-- `EXPECT FAULT = name` (R91). -/
  | expectFault (f : FaultCode)
  /-- `LOOPBACK`: `IN <- OUT` (R92). -/
  | loopback
  /-- `FLIP p`: `IN <- flip(IN, p)` (R92). -/
  | flip (p : Nat)
  /-- `SELLEN n`: `N <- n` then CTLEN (R92). -/
  | selLen (n : Reg16)
  /-- `SELIDX c`: `CODE <- c` then CTIDX (R92). -/
  | selIdx (c : Reg16)
  deriving DecidableEq, Repr

/-- A script, top to bottom (30_encoding.md R90). -/
abbrev Script := List Line

end Sys2Proof.Machine
end

