-- ==== Sys2Proof/Machine/State.lean ====
section
/-! DEFINITION. The state of the block and of the host's script, the stops, and reset
(10_state.md R21, R40, R45, 70_reset_and_hazards.md R220). -/

namespace Sys2Proof.Machine

/-- The two bit buffers and their capacity (10_state.md R23 to R25, 20_memory.md R50). -/
structure Memory where
  /-- `IN`, written by the host only -/
  inBuf : Bits
  /-- `OUT`, written by the block only, always whole -/
  outBuf : Bits
  /-- `CAP`, the capacity of each; `none` is infinite; a parameter that nothing writes -/
  cap : Option Nat
  deriving DecidableEq, Repr

/-- A sequence of `m` bits fits a buffer (10_state.md R25). -/
def Memory.holds (m : Memory) (len : Nat) : Bool :=
  match m.cap with
  | none => true
  | some c => len ≤ c

/-- The form of the buffers: finite bit lists no longer than `CAP` (10_state.md R23, R24). A list of
bits is its own canonical form: equal buffers are equal lists. -/
def Memory.wf (m : Memory) : Bool := m.holds m.inBuf.length && m.holds m.outBuf.length

/-- Everything the spec gives the machine (10_state.md R21), and the host's script (R40). -/
structure State where
  /-- `CT`, read only; held here so that a claim can be made for every table (R8, R22) -/
  ct : CodeTable
  /-- `IN`, `OUT` and `CAP` -/
  mem : Memory
  /-- `CODE`, a code index (R26) -/
  code : Reg16
  /-- `N`, a codeword length (R27) -/
  n : Reg16
  /-- `K`, a data-block length (R28) -/
  k : Reg16
  /-- `LEN`, a payload length in bits (R29) -/
  len : Reg32
  /-- `STATUS` (R31) -/
  status : Byte
  /-- the host's: the lines of the script still to be performed, the next one first (R40) -/
  script : Script
  /-- the host's: the index of the next line, counted from 0 (R40) -/
  line : Nat
  /-- the MODEL's own: every EXPECT line so far found what it names; DESIGN CHOICE, log entry 7 -/
  expectsHeld : Bool
  deriving DecidableEq, Repr

/-- Why the machine stops with a fault of the MODEL. The five faults of the spec are no stops: they
are next states with `STATUS.FAULT` written (60_exceptions.md R200). -/
inductive Fault where
  /-- Raised by the host's line `FLIP p` when `p` is not below `|IN|`: 30_encoding.md R92 says the line
  "needs `0 ≤ p < |IN|`" and gives no effect otherwise. Safe: the model stops (log entry 8). -/
  | flipOutOfRange
  deriving DecidableEq, Repr

/-- Why a line is refused (60_exceptions.md R207). A refusal is an outcome of its own kind, changes
nothing and has no code. Safe in every case: no claim of success goes through it (log entry 6). -/
inductive Refusal where
  /-- An instruction without a meaning in `exec`; no arm raises it in this model. Safe. -/
  | notModelled (mnemonic : String)
  /-- Raised by a script line that sends a reserved command word (R207 (a), 30_encoding.md R72). Safe. -/
  | reservedWord (e : DecodeError)
  /-- Raised by every command while `STATUS.READY = 0` (R207 (b)). Safe. -/
  | notReady
  /-- Raised by HDRENC when `IN` is not exactly 32 bits long (R207 (c)). Safe. -/
  | headerNot32Bits
  /-- Raised by a host write to `IN`, or by a command's result, longer than a finite `CAP`
  (R207 (d)). Safe. -/
  | overCapacity
  deriving DecidableEq, Repr

/-- The machine right after reset: the table, the capacity and READY as given, every other register 0,
both buffers empty (10_state.md R45, 70_reset_and_hazards.md R220), and no line to perform. -/
def State.afterReset (ct : CodeTable) (cap : Option Nat) (ready : Bool) : State where
  ct := ct
  mem := ⟨[], [], cap⟩
  code := 0
  n := 0
  k := 0
  len := 0
  status := Status.atReset ready
  script := []
  line := 0
  expectsHeld := true

/-- The machine right after reset with the table `ct` and the capacity `cap`: READY is `valid(CT)`
(10_state.md R45, 70_reset_and_hazards.md R220, R222). -/
def State.resetWith (ct : CodeTable) (cap : Option Nat) : State := State.afterReset ct cap ct.valid

/-- The machine right after reset, with the spec's default table `REF_CT` and its infinite `CAP`
(00_scope.md R8). READY is written out: `REF_CT` is valid (40_codetable.md R109), so this is
`State.resetWith refTable Config.cap`. DESIGN CHOICE, log entries 1 and 2. -/
def State.reset : State := State.afterReset refTable Config.cap true

end Sys2Proof.Machine
end

