-- ==== Sys2Proof/Machine/Operands.lean ====
section
/-! DEFINITION. The operand forms: what a command reads, and which commands write `OUT`
(10_state.md R33). No command has an operand in its word (30_encoding.md R70). -/

namespace Sys2Proof.Machine

/-- `IN` (10_state.md R23). -/
def State.inBuf (s : State) : Bits := s.mem.inBuf

/-- `OUT` (10_state.md R24). -/
def State.outBuf (s : State) : Bits := s.mem.outBuf

/-- `STATUS.READY` (10_state.md R31). -/
def State.ready (s : State) : Bool := Status.ready s.status

/-- `STATUS.FAULT` (10_state.md R31). -/
def State.fault (s : State) : BitVec 3 := Status.fault s.status

/-- `MemRead(B, a, m)` of a buffer (00_scope.md R15); every rule checks `a + m ≤ |B|` first. -/
def memRead (b : Bits) (a m : Nat) : Bits := slice b a (a + m)

/-- The code whose index stands in `CODE`, or UnsupportedCode (40_codetable.md R100,
60_exceptions.md R192). -/
def State.codeOperand (s : State) : Except RaisedFault Code :=
  match Code.byIndex s.code.toNat with
  | some c => .ok c
  | none => .error .unsupportedCode

/-- The code whose codeword length stands in `N`, or UnsupportedCode (40_codetable.md R112). -/
def State.lengthOperand (s : State) : Except RaisedFault Code :=
  match Code.byLength s.n.toNat with
  | some c => .ok c
  | none => .error .unsupportedCode

/-- The header region of `IN`, bits 0..95, or FrameTruncated (20_memory.md R56). -/
def State.headerRegion (s : State) : Except RaisedFault Bits :=
  if s.inBuf.length < Config.hdrRegion then .error .frameTruncated
  else .ok (memRead s.inBuf 0 Config.hdrRegion)

/-- The payload region of `IN`, all bits from 96 to the end (20_memory.md R56, 45_frame_parser.md R181). -/
def State.payloadRegion (s : State) : Bits :=
  memRead s.inBuf Config.hdrRegion (s.inBuf.length - Config.hdrRegion)

/-- `OUT` is in the command's write set (10_state.md R33). -/
def writesOut (i : Instr) : Bool :=
  match i with
  | .ctidx  => false
  | .ctlen  => false
  | .encode => true
  | .hdrbld => true
  | .hdrenc => true
  | .hdrdec => false
  | .frmbld => true
  | .decode => true
  | .frmprs => true

end Sys2Proof.Machine
end

