-- ==== Sys2Proof/Machine/Ops.lean ====
section
/-! DEFINITION. The named operations over the buffers and registers, taking a fault as one shared
operation (60_exceptions.md R200), and how a command completes or is refused (R207).
There is no return from a fault: nothing was entered (R202). -/

namespace Sys2Proof.Machine

/-- What performing a command or a line answers. -/
abbrev StepResult := Host.Outcome State Fault Refusal

/-- `CODE <- v`. -/
def State.setCode (s : State) (v : Reg16) : State := { s with code := v }

/-- `N <- v`. -/
def State.setN (s : State) (v : Reg16) : State := { s with n := v }

/-- `K <- v`. -/
def State.setK (s : State) (v : Reg16) : State := { s with k := v }

/-- `LEN <- v`. -/
def State.setLen (s : State) (v : Reg32) : State := { s with len := v }

/-- `IN <- v`, a host write (10_state.md R23). -/
def State.setIn (s : State) (v : Bits) : State := { s with mem := { s.mem with inBuf := v } }

/-- `MemWrite(OUT, v)`: the whole of `OUT` is replaced (00_scope.md R15, 10_state.md R24). -/
def State.setOut (s : State) (v : Bits) : State := { s with mem := { s.mem with outBuf := v } }

/-- `STATUS.FAULT <- f`; READY and the reserved bits are kept (10_state.md R31). -/
def State.setFault (s : State) (f : FaultCode) : State :=
  { s with status := Status.withFault s.status f.number }

/-- Fault entry, 60_exceptions.md R200: `STATUS.FAULT <- code(F)`; `OUT <- ε` if `OUT` is in the
command's write set; every other register and `IN` keep their values. Control goes nowhere: the
command is complete and the block takes the next one. -/
def State.takeFault (s : State) (i : Instr) (f : RaisedFault) : State :=
  (if writesOut i then s.setOut [] else s).setFault (.raised f)

/-- Every command is refused while `STATUS.READY = 0` (60_exceptions.md R207 (b)); this
refusal is tested before every fault (R203). -/
def whenReady (s : State) (act : StepResult) : StepResult :=
  if s.ready then act else .refused .notReady

/-- The end of a command whose result is the content of `OUT`: a fault is taken; a result that does
not fit `CAP` is refused (10_state.md R25); any other is written, with `FAULT <- 0`.
DESIGN CHOICE, log entry 19: a command that meets a fault has no result, so it takes the fault
whatever `CAP` is, and only a result is held against `CAP`. 60_exceptions.md R203 puts refusal before
every fault, and R207 (d) speaks of a result, so the spec leaves this point open. -/
def finishOut (i : Instr) (s : State) (result : Except RaisedFault Bits) : StepResult :=
  match result with
  | .error f => .next (s.takeFault i f)
  | .ok v => if s.mem.holds v.length then .next ((s.setOut v).setFault .ok) else .refused .overCapacity

/-- The end of a command whose results are registers: a fault is taken; else the state with the
result registers written gets `FAULT <- 0`. -/
def finishRegs (i : Instr) (s : State) (result : Except RaisedFault State) : StepResult :=
  match result with
  | .error f => .next (s.takeFault i f)
  | .ok s' => .next (s'.setFault .ok)

/-- The reset procedure on a running machine (70_reset_and_hazards.md R220): with the table supplied
at that reset; the host's script is not the block's and is kept. -/
def State.applyReset (s : State) (ct : CodeTable) : State :=
  { State.resetWith ct s.mem.cap with script := s.script, line := s.line, expectsHeld := s.expectsHeld }

end Sys2Proof.Machine
end

