-- ==== Sys2Proof/Machine/CodeTableUnit.lean ====
section
/-! DEFINITION. The CodeTable commands CTIDX and CTLEN (40_codetable.md R111, R112). -/

namespace Sys2Proof.Machine

/-- CTIDX: `N <- n(CODE)`, `K <- k(CODE)`, or UnsupportedCode when `CODE > 3` (40_codetable.md R111). -/
def execCtidx (s : State) : StepResult :=
  whenReady s <| finishRegs .ctidx s do
    let c ← s.codeOperand
    return (s.setN (BitVec.ofNat 16 c.n)).setK (BitVec.ofNat 16 c.k)

/-- CTLEN: `CODE <- c`, `K <- k(c)` for the code of length `N`, or UnsupportedCode when there is none;
no nearest match and no default (40_codetable.md R112, R113). -/
def execCtlen (s : State) : StepResult :=
  whenReady s <| finishRegs .ctlen s do
    let c ← s.lengthOperand
    return (s.setCode (BitVec.ofNat 16 c.index)).setK (BitVec.ofNat 16 c.k)

end Sys2Proof.Machine
end

