-- ==== Sys2Proof/Machine/Decoder.lean ====
section
/-! DEFINITION. The Decoder and the command DECODE (44_decoder.md). -/

namespace Sys2Proof.Machine

/-- `syndrome(c, b) = H(c) · bᵗ` (44_decoder.md R161). -/
def Decoder.syndrome (t : CodeTable) (c : Code) (b : Bits) : Bits := mulVec c.r c.n (t.par c) b

/-- `locate(c, s)`: the first position whose column of `H(c)` equals `s`, ascending, or `none`
(44_decoder.md R164, decision D21). -/
def Decoder.locate (t : CodeTable) (c : Code) (s : Bits) : Option Nat :=
  (List.range c.n).find? fun p => (t.par c).col c.r p == s

/-- `slice(b', r, n)`, the data bits of a block (44_decoder.md R168). -/
def Decoder.extract (c : Code) (b : Bits) : Bits := slice b c.r c.n

/-- `dec_block(c, b)`: syndrome, lookup, correction, extraction (44_decoder.md R161 to R168). -/
def Decoder.decBlock (t : CodeTable) (c : Code) (b : Bits) : Except RaisedFault Bits :=
  let s := Decoder.syndrome t c b
  if s = zeros c.r then .ok (Decoder.extract c b)
  else
    match Decoder.locate t c s with
    | none => .error .uncorrectableBlock
    | some p => .ok (Decoder.extract c (flipBit b p))

/-- The blocks in ascending order; the first fault ends it (44_decoder.md R169, R172). -/
def Decoder.decBlocks (t : CodeTable) (c : Code) : List Bits → Except RaisedFault Bits
  | [] => .ok []
  | b :: rest => do
    let d ← Decoder.decBlock t c b
    let ds ← Decoder.decBlocks t c rest
    return d ++ ds

/-- `decode(c, e)`: the tiling is checked before any block is touched (44_decoder.md R169,
decision D14). -/
def Decoder.decode (t : CodeTable) (c : Code) (e : Bits) : Except RaisedFault Bits :=
  if e.length % c.n ≠ 0 then .error .frameTruncated
  else Decoder.decBlocks t c (blocks c.n e)

/-- DECODE: `OUT <- decode(CODE, IN)`; UnsupportedCode, then FrameTruncated, then UncorrectableBlock
(44_decoder.md R171, R172). -/
def execDecode (s : State) : StepResult :=
  whenReady s <| finishOut .decode s do
    let c ← s.codeOperand
    Decoder.decode s.ct c s.inBuf

end Sys2Proof.Machine
end

