-- ==== Sys2Proof/Machine/Encoder.lean ====
section
/-! DEFINITION. The Encoder and the command ENCODE (41_encoder.md). -/

namespace Sys2Proof.Machine

/-- The number of zero bits `pad` adds to `len` bits: `(k - (len mod k)) mod k` (41_encoder.md R121). -/
def Encoder.padding (c : Code) (len : Nat) : Nat := (c.k - len % c.k) % c.k

/-- `pad(c, d)`: zero bits on the right up to a multiple of `k` (41_encoder.md R121). -/
def Encoder.pad (c : Code) (d : Bits) : Bits := d ++ zeros (Encoder.padding c d.length)

/-- `enc_block(c, d) = d · G(c)` (41_encoder.md R122). -/
def Encoder.encBlock (t : CodeTable) (c : Code) (d : Bits) : Bits := vecMul c.k c.n d (t.gen c)

/-- `encode(c, d)`: the codewords of the `k`-bit blocks of `pad(c, d)`, in block order
(41_encoder.md R123, R128). -/
def Encoder.encode (t : CodeTable) (c : Code) (d : Bits) : Bits :=
  (blocks c.k (Encoder.pad c d)).flatMap (Encoder.encBlock t c)

/-- ENCODE: `OUT <- encode(CODE, IN)`, or UnsupportedCode when `CODE > 3` (41_encoder.md R124). -/
def execEncode (s : State) : StepResult :=
  whenReady s <| finishOut .encode s do
    let c ← s.codeOperand
    return Encoder.encode s.ct c s.inBuf

end Sys2Proof.Machine
end

