-- ==== Sys2Proof/Machine/HeaderCodec.lean ====
section
/-! DEFINITION. The HeaderCodec and the commands HDRBLD, HDRENC, HDRDEC (42_header_codec.md). -/

namespace Sys2Proof.Machine

/-- `build_header(L, c)`: UnsupportedCode before ValueOutOfRange, then both fields most significant
bit first (42_header_codec.md R137, decision D11; 30_encoding.md R77, R78). -/
def HeaderCodec.buildHeader (len code : Nat) : Except RaisedFault Bits :=
  if code > 3 then .error .unsupportedCode
  else if len > Config.maxPayload then .error .valueOutOfRange
  else .ok (u16 len ++ u16 code)

/-- `encode_header(h) = encode(0, h)` (42_header_codec.md R140). -/
def HeaderCodec.encodeHeader (t : CodeTable) (h : Bits) : Bits := Encoder.encode t hdrCode h

/-- `decode_header(e)`: the block decoder's fault first, then HeaderCorrupt for an index above 3
(42_header_codec.md R141, decision D16). -/
def HeaderCodec.decodeHeader (t : CodeTable) (e : Bits) : Except RaisedFault (Nat × Code) := do
  let h ← Decoder.decode t hdrCode e
  match Code.byIndex (val (slice h 16 32)) with
  | none => .error .headerCorrupt
  | some c => .ok (val (slice h 0 16), c)

/-- HDRBLD: `OUT <- build_header(LEN, CODE)` (42_header_codec.md R136). -/
def execHdrbld (s : State) : StepResult :=
  whenReady s <| finishOut .hdrbld s (HeaderCodec.buildHeader s.len.toNat s.code.toNat)

/-- HDRENC: `OUT <- encode_header(IN)` for an `IN` of exactly 32 bits, refused for any other length
(42_header_codec.md R139, decision D12). -/
def execHdrenc (s : State) : StepResult :=
  whenReady s <|
    if s.inBuf.length = Config.hdrBits then
      finishOut .hdrenc s (.ok (HeaderCodec.encodeHeader s.ct s.inBuf))
    else .refused .headerNot32Bits

/-- HDRDEC: `LEN` and `CODE` from the first 96 bits of `IN`, the rest ignored; FrameTruncated, then
UncorrectableBlock, then HeaderCorrupt (42_header_codec.md R142, decision D13). -/
def execHdrdec (s : State) : StepResult :=
  whenReady s <| finishRegs .hdrdec s do
    let e ← s.headerRegion
    let (len, c) ← HeaderCodec.decodeHeader s.ct e
    return (s.setLen (BitVec.ofNat 32 len)).setCode (BitVec.ofNat 16 c.index)

end Sys2Proof.Machine
end

