-- ==== Sys2Proof/Machine/FrameAssembler.lean ====
section
/-! DEFINITION. The FrameAssembler and the command FRMBLD (43_frame_assembler.md). -/

namespace Sys2Proof.Machine

/-- The frame of the data `d` under the code `c` (43_frame_assembler.md R150, R151):
encoded header, then encoded payload. -/
def FrameAssembler.buildFrame (t : CodeTable) (c : Code) (d : Bits) : Except RaisedFault Bits := do
  let p := Encoder.encode t c d
  let h ← HeaderCodec.buildHeader d.length c.index
  return HeaderCodec.encodeHeader t h ++ p

/-- FRMBLD: `OUT` is the frame of `IN` under `CODE`; UnsupportedCode, then ValueOutOfRange
(43_frame_assembler.md R151, R153). -/
def execFrmbld (s : State) : StepResult :=
  whenReady s <| finishOut .frmbld s do
    let c ← s.codeOperand
    FrameAssembler.buildFrame s.ct c s.inBuf

end Sys2Proof.Machine
end

