-- ==== Sys2Proof/Machine/FrameParser.lean ====
section
/-! DEFINITION. The FrameParser and the command FRMPRS (45_frame_parser.md). -/

namespace Sys2Proof.Machine

/-- Step 3: the first `len` decoded bits, or FrameTruncated when there are fewer
(45_frame_parser.md R181, R183, decision D15). -/
def FrameParser.cut (len : Nat) (d : Bits) : Except RaisedFault Bits :=
  if d.length < len then .error .frameTruncated else .ok (slice d 0 len)

/-- FRMPRS: the data of the frame in `IN`, in the order of checks of 45_frame_parser.md R181, R182. -/
def execFrmprs (s : State) : StepResult :=
  whenReady s <| finishOut .frmprs s do
    let e ← s.headerRegion
    let (len, c) ← HeaderCodec.decodeHeader s.ct e
    let d ← Decoder.decode s.ct c s.payloadRegion
    FrameParser.cut len d

end Sys2Proof.Machine
end

