-- ==== Sys2Proof/Machine/Dispatch.lean ====
section
/-! DEFINITION. One arm per command; every command has its meaning. -/

namespace Sys2Proof.Machine

def exec (i : Instr) (s : State) : Host.Outcome State Fault Refusal :=
  match i with
  | .ctidx => Sys2Proof.Machine.execCtidx s
  | .ctlen => Sys2Proof.Machine.execCtlen s
  | .encode => Sys2Proof.Machine.execEncode s
  | .hdrbld => Sys2Proof.Machine.execHdrbld s
  | .hdrenc => Sys2Proof.Machine.execHdrenc s
  | .hdrdec => Sys2Proof.Machine.execHdrdec s
  | .frmbld => Sys2Proof.Machine.execFrmbld s
  | .decode => Sys2Proof.Machine.execDecode s
  | .frmprs => Sys2Proof.Machine.execFrmprs s

end Sys2Proof.Machine
end

