-- ==== Sys2Proof/Machine/HostActions.lean ====
section
/-! DEFINITION. What one line of the host's script does: a command word, a host action or a
pseudo-line (30_encoding.md R90 to R92, 10_state.md R34). -/

namespace Sys2Proof.Machine

/-- The host sends a command word: the command it decodes to is performed, a reserved word is refused
(30_encoding.md R71, R72). -/
def sendWord (w : Byte) (s : State) : StepResult :=
  match Sys2Proof.decode w with
  | .ok i => exec i s
  | .error e => .refused (.reservedWord e)

/-- `IN <- v` by the host, refused when `v` is longer than a finite `CAP` (10_state.md R23, R25). -/
def hostWriteIn (v : Bits) (s : State) : StepResult :=
  if s.mem.holds v.length then .next (s.setIn v) else .refused .overCapacity

/-- A register as the host reads it (10_state.md R34); reading has no side effect (20_memory.md R58). -/
def State.readReg (s : State) : RegName → Nat
  | .code => s.code.toNat
  | .n => s.n.toNat
  | .k => s.k.toNat
  | .len => s.len.toNat
  | .status => s.status.toNat

/-- `EXPECT`: reads and compares, no effect on the block (30_encoding.md R91); the outcome of the
comparison is kept by the host. DESIGN CHOICE, log entry 7. -/
def State.noteExpect (s : State) (found : Bool) : State :=
  { s with expectsHeld := s.expectsHeld && found }

/-- `FLIP p`: `IN <- flip(IN, p)` for `p < |IN|` (30_encoding.md R92); a stop otherwise, log entry 8. -/
def hostFlip (p : Nat) (s : State) : StepResult :=
  if p < s.inBuf.length then hostWriteIn (flipBit s.inBuf p) s else .fault .flipOutOfRange

/-- One line of the script (30_encoding.md R90 to R92). A pseudo-line that stands for two actions
performs both, one after the other (log entry 9). -/
def performLine (l : Line) (s : State) : StepResult :=
  match l with
  | .command w => sendWord w s
  | .setIn v => hostWriteIn v s
  | .setCode v => .next (s.setCode v)
  | .setN v => .next (s.setN v)
  | .setK v => .next (s.setK v)
  | .setLen v => .next (s.setLen v)
  | .expectReg reg v => .next (s.noteExpect (decide (s.readReg reg = v)))
  | .expectOut v => .next (s.noteExpect (decide (s.outBuf = v)))
  | .expectFault f => .next (s.noteExpect (decide (s.fault = f.number)))
  | .loopback => hostWriteIn s.outBuf s
  | .flip p => hostFlip p s
  | .selLen n => exec .ctlen (s.setN n)
  | .selIdx c => exec .ctidx (s.setCode c)

/-- The host goes on to the next line: the index rises by 1 and never wraps (10_state.md R40). -/
def State.advance (s : State) (rest : Script) : State := { s with script := rest, line := s.line + 1 }

end Sys2Proof.Machine
end

