-- ==== Sys2Proof/Machine/Step.lean ====
section
/-! DEFINITION. One step: the host performs the next line of its script (10_state.md R20, R40). -/

namespace Sys2Proof.Machine

/-- One step. The next line is taken off the script and performed; with no line left the block is
idle "and loses no state while idle" (60_exceptions.md R213; log entry 5). -/
def step (s : State) : Host.Outcome State Fault Refusal :=
  match s.script with
  | [] => .next s
  | l :: rest => performLine l (s.advance rest)

/-- `s` with a command word placed as the very next line of the script, where `step` takes its next
instruction; the lines that were there come after it. It stands for the load of a script from
outside (log entry 4). -/
def State.withFetchWord (s : State) (nbits w : Nat) : State :=
  { s with script := .command (tableWord nbits w) :: s.script }

end Sys2Proof.Machine
end

