-- ==== Sys2Proof/Safety.lean ====
section
/-! DEFINITION. What a sound state and a good run are, in the terms the claims use. -/

namespace Sys2Proof.Machine

/-- The invariant of every state that a run from reset reaches: the buffers fit `CAP`
(10_state.md R23 to R25); READY says whether the table is valid, bits 6:3 of `STATUS` are zero and
FAULT is one of the six codes (10_state.md R31). -/
abbrev State.Inv (s : State) : Prop :=
  s.mem.wf = true ∧ s.ready = s.ct.valid ∧ Status.reserved s.status = 0 ∧ s.fault.toNat ≤ 5

/-- The block accepts commands and its table is valid (00_scope.md R8, 10_state.md R31): the premise
of every claim about the codes. -/
abbrev State.Usable (s : State) : Prop := s.ready = true ∧ s.ct.valid = true

/-- A run has gone wrong when a line was refused (70_reset_and_hazards.md R234); a fault of the block
is not the end of a run. -/
def GoesWrong (s : State) : Prop := ∃ k r, Host.Core.run Sys2Proof.core k s = .refused r

/-- Every line was performed: the end of a run (70_reset_and_hazards.md R234). -/
abbrev State.Finished (s : State) : Prop := s.script = []

/-- `s` with a script to perform from its first line (10_state.md R40). -/
def State.withScript (s : State) (ls : Script) : State := { s with script := ls, line := 0 }

end Sys2Proof.Machine

namespace Sys2Proof.Claim

open Sys2Proof.Machine

/-- `STATUS` with `f` in bits 2:0 and bits 7:3 kept (10_state.md R31), by masks. -/
def status (st : Byte) (f : Nat) : Byte := (st &&& 0xF8#8) ||| BitVec.ofNat 8 f

/-- `s` with `f` in `STATUS.FAULT` and nothing else changed. -/
def faultKeep (s : State) (f : Nat) : State := { s with status := status s.status f }

/-- `s` with `v` in `OUT`, `f` in `STATUS.FAULT` and nothing else changed. -/
def outFault (s : State) (v : Bits) (f : Nat) : State :=
  { s with mem := { s.mem with outBuf := v }, status := status s.status f }

/-- `m` bits fit the capacity (10_state.md R25). -/
abbrev Fits (s : State) (m : Nat) : Prop := ∀ c, s.mem.cap = some c → m ≤ c

/-- The rows `(c, n, k)` of 00_scope.md R6. -/
def params : List (Nat × Nat × Nat) := [(0, 3, 1), (1, 7, 4), (2, 15, 11), (3, 31, 26)]

/-- `ceil(a / b)` (00_scope.md R11). -/
def ceilDiv (a b : Nat) : Nat := (a + b - 1) / b

/-- The sum mod 2 of `e(0), ..., e(m-1)`: whether an odd number of them is 1 (00_scope.md R13). -/
def parity (m : Nat) (e : Nat → Bool) : Bool := ((Finset.range m).filter fun i => e i = true).card % 2 == 1

/-- The number of positions from `a` to `a + w - 1` at which two sequences differ. -/
def differences (x y : Bits) (a w : Nat) : Nat :=
  ((Finset.range w).filter fun i => bitAt x (a + i) ≠ bitAt y (a + i)).card

/-- `y` is `x` after a channel that flips at most one bit of each of the `m` groups of `w` bits that
begin at position `a`. -/
abbrev OneFlipPer (x y : Bits) (a w m : Nat) : Prop := ∀ b, b < m → differences x y (a + b * w) w ≤ 1

/-- The bit that occurs at least twice among three (44_decoder.md R173). -/
def majority (x y z : Bit) : Bit := (x && y) || (x && z) || (y && z)

/-- Header bit `i` as code 0 decodes it from the first 96 bits of `e` (42_header_codec.md R144). -/
def headerBit (e : Bits) (i : Nat) : Bit :=
  majority (bitAt e (3 * i)) (bitAt e (3 * i + 1)) (bitAt e (3 * i + 2))

/-- The number whose 16 bits, most significant first, are header bits `a` to `a + 15`
(30_encoding.md R77). -/
def headerField (e : Bits) (a : Nat) : Nat :=
  (Finset.range 16).sum fun i => (headerBit e (a + i)).toNat * 2 ^ (15 - i)

/-- The syndrome of a block, its bits as parities (44_decoder.md R161). -/
def syndromeOf (t : CodeTable) (c : Code) (b : Bits) : Bits :=
  (List.range c.r).map fun a => parity c.n fun j => (t.par c).at a j && bitAt b j

/-- A row of a matrix, written as a binary numeral of `w` digits, column 0 first. -/
def row (w : Nat) (v : Nat) : Bits := (List.range w).map fun j => v.testBit (w - 1 - j)

/-- The encoded header of length 5 and code index 1, as 42_header_codec.md R139 writes it: 39 zeros,
`111`, `000`, `111`, 45 zeros, `111`. -/
def exampleHeader : Bits :=
  zeros 39 ++ [true, true, true] ++ zeros 3 ++ [true, true, true] ++ zeros 45 ++ [true, true, true]

/-- The commands that have `OUT` in their write set (10_state.md R33). -/
def outWriters : List Instr := [.encode, .hdrbld, .hdrenc, .frmbld, .decode, .frmprs]

/-- `OUT` after a fault of `i` (60_exceptions.md R200). -/
def outAfterFault (i : Instr) (s : State) : Bits := if i ∈ outWriters then [] else s.outBuf

/-- Two states agree on what a command reads (10_state.md R33), READY and the capacity included. -/
def SameReads (i : Instr) (s t : State) : Prop :=
  s.ready = t.ready ∧ s.mem.cap = t.mem.cap ∧
    match i with
    | .ctidx => s.code = t.code ∧ s.ct = t.ct
    | .ctlen => s.n = t.n ∧ s.ct = t.ct
    | .encode => s.inBuf = t.inBuf ∧ s.code = t.code ∧ s.ct = t.ct
    | .hdrbld => s.len = t.len ∧ s.code = t.code
    | .hdrenc => s.inBuf = t.inBuf ∧ s.ct = t.ct
    | .hdrdec => s.inBuf = t.inBuf ∧ s.ct = t.ct
    | .frmbld => s.inBuf = t.inBuf ∧ s.code = t.code ∧ s.ct = t.ct
    | .decode => s.inBuf = t.inBuf ∧ s.code = t.code ∧ s.ct = t.ct
    | .frmprs => s.inBuf = t.inBuf ∧ s.ct = t.ct

/-- Two states agree on what a command writes on success besides `STATUS.FAULT` (10_state.md R33). -/
def SameResults (i : Instr) (s t : State) : Prop :=
  match i with
  | .ctidx => s.n = t.n ∧ s.k = t.k
  | .ctlen => s.code = t.code ∧ s.k = t.k
  | .hdrdec => s.len = t.len ∧ s.code = t.code
  | .encode => s.outBuf = t.outBuf
  | .hdrbld => s.outBuf = t.outBuf
  | .hdrenc => s.outBuf = t.outBuf
  | .frmbld => s.outBuf = t.outBuf
  | .decode => s.outBuf = t.outBuf
  | .frmprs => s.outBuf = t.outBuf

/-- `s'` differs from `s` in nothing outside the write set of `i` (10_state.md R33). -/
def OnlyWriteSet (i : Instr) (s s' : State) : Prop :=
  s'.ct = s.ct ∧ s'.inBuf = s.inBuf ∧ s'.mem.cap = s.mem.cap ∧
    s'.status.extractLsb' 3 5 = s.status.extractLsb' 3 5 ∧
    s'.script = s.script ∧ s'.line = s.line ∧ s'.expectsHeld = s.expectsHeld ∧
    (i ∉ [Instr.ctidx] → s'.n = s.n) ∧
    (i ∉ [Instr.ctidx, Instr.ctlen] → s'.k = s.k) ∧
    (i ∉ [Instr.ctlen, Instr.hdrdec] → s'.code = s.code) ∧
    (i ∉ [Instr.hdrdec] → s'.len = s.len) ∧
    (i ∉ outWriters → s'.outBuf = s.outBuf)

/-- The fault codes a command can leave (10_state.md R33, 60_exceptions.md R191), 0 included. -/
def faultCodesOf (i : Instr) : List Nat :=
  match i with
  | .ctidx => [0, 1]
  | .ctlen => [0, 1]
  | .encode => [0, 1]
  | .hdrbld => [0, 1, 2]
  | .hdrenc => [0]
  | .hdrdec => [0, 5, 4, 3]
  | .frmbld => [0, 1, 2]
  | .decode => [0, 1, 5, 4]
  | .frmprs => [0, 5, 4, 3]

end Sys2Proof.Claim
end

