-- ==== Sys2Proof/Certificates/Slice0/Obligations.lean ====
section
/-! DEFINITION. The statements about the block, each from a rule of the spec or derived from several.
The vocabulary (`faultKeep`, `outFault`, `parity`, `differences`, ...) is that of Safety.lean. -/

open Sys2Proof Sys2Proof.Machine Sys2Proof.Claim

/-! ### Reset, the table, the command words, the step -/

/-- 10_state.md R45 (the spec's decision D17): what reset leaves, for every table and capacity. -/
def Obligations.ResetLeavesTheValuesOfTheSpec : Prop :=
  ∀ (ct : CodeTable) (cap : Option Nat) (s : State),
    s = State.resetWith ct cap ∨ (∃ s₀ : State, s = s₀.applyReset ct) →
      s.inBuf = [] ∧ s.outBuf = [] ∧ s.code = 0 ∧ s.n = 0 ∧ s.k = 0 ∧ s.len = 0 ∧
      s.status.extractLsb' 0 3 = 0 ∧ s.status.extractLsb' 3 4 = 0 ∧
      s.status.getLsbD 7 = ct.valid ∧ s.ct = ct

/-- The model's choice, log entries 1 and 2 (the spec's decisions D8 and D3): the reset state is the one
with the spec's default table and an infinite capacity; that table is the one written out in
40_codetable.md section 4, and it is valid. -/
def Obligations.ResetHoldsTheWrittenReferenceTable : Prop :=
  State.reset = State.resetWith refTable none ∧ refTable.valid = true ∧
  refTable.gen .repetition3_1 = [row 3 0b111] ∧
  refTable.par .repetition3_1 = [row 3 0b101, row 3 0b011] ∧
  refTable.gen .hamming7_4 = [0b1101000, 0b1010100, 0b0110010, 0b1110001].map (row 7) ∧
  refTable.par .hamming7_4 = [0b1001101, 0b0101011, 0b0010111].map (row 7) ∧
  refTable.gen .hamming15_11 =
    [0b110010000000000, 0b101001000000000, 0b011000100000000, 0b111000010000000,
     0b100100001000000, 0b010100000100000, 0b110100000010000, 0b001100000001000,
     0b101100000000100, 0b011100000000010, 0b111100000000001].map (row 15) ∧
  refTable.par .hamming15_11 =
    [0b100011011010101, 0b010010110110011, 0b001001110001111, 0b000100001111111].map (row 15) ∧
  refTable.gen .hamming31_26 =
    [0b1100010000000000000000000000000, 0b1010001000000000000000000000000,
     0b0110000100000000000000000000000, 0b1110000010000000000000000000000,
     0b1001000001000000000000000000000, 0b0101000000100000000000000000000,
     0b1101000000010000000000000000000, 0b0011000000001000000000000000000,
     0b1011000000000100000000000000000, 0b0111000000000010000000000000000,
     0b1111000000000001000000000000000, 0b1000100000000000100000000000000,
     0b0100100000000000010000000000000, 0b1100100000000000001000000000000,
     0b0010100000000000000100000000000, 0b1010100000000000000010000000000,
     0b0110100000000000000001000000000, 0b1110100000000000000000100000000,
     0b0001100000000000000000010000000, 0b1001100000000000000000001000000,
     0b0101100000000000000000000100000, 0b1101100000000000000000000010000,
     0b0011100000000000000000000001000, 0b1011100000000000000000000000100,
     0b0111100000000000000000000000010, 0b1111100000000000000000000000001].map (row 31) ∧
  refTable.par .hamming31_26 =
    [0b1000011011010101101010101010101, 0b0100010110110011011001100110011,
     0b0010001110001111000111100001111, 0b0001000001111111000000011111111,
     0b0000100000000000111111111111111].map (row 31)

/-- 40_codetable.md R103 and the numbers of R100: both lookups are exact, and they are inverses. -/
def Obligations.LookupsAreExactAndInverse : Prop :=
  (Code.all.map fun c => (c.index, c.n, c.k)) = params ∧
  (∀ c : Code, c ∈ Code.all ∧ c.r = c.n - c.k) ∧
  (∀ (i : Nat) (c : Code), Code.byIndex i = some c ↔ i = c.index) ∧
  (∀ i : Nat, Code.byIndex i = none ↔ ∀ row ∈ params, i ≠ row.1) ∧
  (∀ (m : Nat) (c : Code), Code.byLength m = some c ↔ m = c.n) ∧
  (∀ m : Nat, Code.byLength m = none ↔ ∀ row ∈ params, m ≠ row.2.1) ∧
  (∀ c : Code, Code.byLength c.n = Code.byIndex c.index)

/-- 40_codetable.md R104 (the spec's decision D22 for (b)): what `valid(CT)` says, with the sums of
(d) as parities. -/
def Obligations.ValidTablesAreThoseOfTheSpec : Prop :=
  ∀ t : CodeTable, t.valid = true ↔ ∀ c : Code,
    ((t.gen c).length = c.k ∧ (∀ row ∈ t.gen c, row.length = c.n) ∧
      (t.par c).length = c.r ∧ ∀ row ∈ t.par c, row.length = c.n) ∧
    (∀ i j, i < c.k → j < c.k → (t.gen c).at i (c.r + j) = decide (i = j)) ∧
    ((∀ p q, p < q → q < c.n → ∃ a, a < c.r ∧ (t.par c).at a p ≠ (t.par c).at a q) ∧
      ∀ p, p < c.n → ∃ a, a < c.r ∧ (t.par c).at a p = true) ∧
    (∀ i a, i < c.k → a < c.r →
      parity c.n (fun j => (t.gen c).at i j && (t.par c).at a j) = false)

/-- 30_encoding.md R71 (the spec's decision D4): the nine words, and no other, decode to commands. -/
def Obligations.CommandWordsDecodeAsTabled : Prop :=
  ∀ (w : Byte) (i : Instr), decode w = .ok i ↔
    (w, i) ∈ [(0b00000000#8, Instr.ctidx), (0b00000001#8, .ctlen), (0b00010000#8, .encode),
      (0b00100000#8, .hdrbld), (0b00100001#8, .hdrenc), (0b00100010#8, .hdrdec),
      (0b00110000#8, .frmbld), (0b01000000#8, .decode), (0b01010000#8, .frmprs)]

/-- From 30_encoding.md section 1: decoding undoes encoding on every well-formed command, encoding
undoes decoding on every word that decodes, and UNIT and FUNC are where the format puts them. -/
def Obligations.DecodeAndEncodeAgree : Prop :=
  (∀ i : Instr, i.wf = true → decode (encode i) = .ok i) ∧
  (∀ (w : Byte) (i : Instr), decode w = .ok i → encode i = w) ∧
  (∀ i : Instr, encode i = i.fields.unit ++ i.fields.func) ∧
  (∀ w : Byte, (∃ i, decode w = .ok i) ↔ (fieldsOf w).wf = true)

/-- From 10_state.md sections 1 and 8: a step performs the command that the next line's word decodes
to, on the state with that line taken off and the line index one higher; a line that is no command
word is performed in the same place; `withFetchWord` puts a word there. -/
def Obligations.StepPerformsTheDecodedCommand : Prop :=
  (∀ (s : State) (w : Byte) (rest : Script) (i : Instr),
    s.script = .command w :: rest → decode w = .ok i →
      step s = exec i { s with script := rest, line := s.line + 1 }) ∧
  (∀ (s : State) (l : Line) (rest : Script), s.script = l :: rest →
    step s = performLine l { s with script := rest, line := s.line + 1 }) ∧
  (∀ (s : State) (w : Byte) (i : Instr), decode w = .ok i →
    step (s.withFetchWord 8 w.toNat) = exec i { s with line := s.line + 1 })

/-- 30_encoding.md R72 (the spec's decision D7): the 247 other words are refused. -/
def Obligations.ReservedWordsAreRefused : Prop :=
  (Finset.univ.filter fun w : Byte => w ∉ [0x00#8, 0x01, 0x10, 0x20, 0x21, 0x22, 0x30, 0x40, 0x50]).card
    = 247 ∧
  ∀ (s : State) (w : Byte) (rest : Script),
    w ∉ [0x00#8, 0x01, 0x10, 0x20, 0x21, 0x22, 0x30, 0x40, 0x50] → s.script = .command w :: rest →
      ∃ e, step s = .refused (.reservedWord e)

/-- The model's choice, log entry 5: with no line left the block idles (60_exceptions.md section 7
says it loses no state while idle). -/
def Obligations.IdleBlockKeepsItsState : Prop :=
  ∀ s : State, s.script = [] → step s = .next s

/-! ### Invariants and whole-machine rules -/

/-- The invariant of Safety.lean holds after every reset. -/
def Obligations.ResetMeetsTheInvariant : Prop :=
  (∀ (ct : CodeTable) (cap : Option Nat), (State.resetWith ct cap).Inv) ∧
  (∀ (s : State) (ct : CodeTable), (s.applyReset ct).Inv) ∧ State.reset.Inv

/-- The buffers fit `CAP`, READY says whether the table is valid, `STATUS[6:3]` is zero and FAULT is at
most 5: every step keeps this, from every state that has it. -/
def Obligations.EveryStepKeepsTheInvariant : Prop :=
  ∀ s s' : State, s.Inv → step s = .next s' → s'.Inv

/-- From 10_state.md sections 3, 4 and 6: no step writes the table, the capacity, READY or the
reserved bits of `STATUS`. -/
def Obligations.TableCapacityAndReadyNeverChange : Prop :=
  ∀ s s' : State, step s = .next s' →
    s'.ct = s.ct ∧ s'.mem.cap = s.mem.cap ∧ s'.status.extractLsb' 3 5 = s.status.extractLsb' 3 5

/-- 70_reset_and_hazards.md R222 (the spec's decision D30): with READY = 0 every command is refused,
READY stays 0 at every step, and only a reset with a valid table changes this. -/
def Obligations.NotReadyRefusesEveryCommandForGood : Prop :=
  (∀ ct cap, ct.valid = false → (State.resetWith ct cap).ready = false) ∧
  ∀ s : State, s.ready = false →
    (∀ i : Instr, exec i s = .refused .notReady) ∧
    (∀ s' : State, step s = .next s' → s'.ready = false) ∧
    (∀ ct : CodeTable, (s.applyReset ct).ready = ct.valid)

/-- 10_state.md R33: for every command, what it leaves unchanged, the faults it can leave, what a
fault leaves, and that its results depend on its read set alone. -/
def Obligations.CommandsHaveTheirReadAndWriteSets : Prop :=
  (∀ (i : Instr) (s s' : State), exec i s = .next s' →
    OnlyWriteSet i s s' ∧ s'.fault.toNat ∈ faultCodesOf i ∧
      (s'.fault.toNat ≠ 0 → s' = outFault s (outAfterFault i s) s'.fault.toNat)) ∧
  (∀ (i : Instr) (s t s' : State), SameReads i s t → exec i s = .next s' →
    ∃ t', exec i t = .next t' ∧ t'.fault = s'.fault ∧ (s'.fault = 0 → SameResults i s' t')) ∧
  (∀ (i : Instr) (s t : State) (r : Refusal), SameReads i s t → exec i s = .refused r →
    exec i t = .refused r)

/-- 60_exceptions.md R200 (the spec's decision D6): fault entry. The code of the fault goes into
FAULT, `OUT` is emptied if the command writes it, all else is kept, and the block takes the next
command at once. -/
def Obligations.FaultEntryWritesFaultAndEmptiesOut : Prop :=
  (∀ (s : State) (i : Instr),
    s.takeFault i .unsupportedCode = outFault s (outAfterFault i s) 1 ∧
    s.takeFault i .valueOutOfRange = outFault s (outAfterFault i s) 2 ∧
    s.takeFault i .headerCorrupt = outFault s (outAfterFault i s) 3 ∧
    s.takeFault i .uncorrectableBlock = outFault s (outAfterFault i s) 4 ∧
    s.takeFault i .frameTruncated = outFault s (outAfterFault i s) 5) ∧
  (∀ (i : Instr) (s s' : State), exec i s = .next s' → s'.fault ≠ 0 →
    ∃ f, s' = s.takeFault i f ∧ s'.ready = true)

/-- From 20_memory.md section 4: a command issued again with nothing written in between changes
nothing. -/
def Obligations.CommandsAreIdempotent : Prop :=
  ∀ (i : Instr) (s s' : State), exec i s = .next s' → exec i s' = .next s'

/-- From 60_exceptions.md section 6 (R207, the spec's decision D7): exactly when a word, a command or a
host write is refused. That a command that meets a fault is not refused for a finite `CAP` is the
model's choice, log entry 19. -/
def Obligations.RefusalsAreThoseOfTheSpec : Prop :=
  (∀ (i : Instr) (s : State), (∃ r, exec i s = .refused r) ↔
    s.ready = false ∨ (i = .hdrenc ∧ s.inBuf.length ≠ 32) ∨
    (i ∈ outWriters ∧ ∃ c t, s.mem.cap = some c ∧
      exec i { s with mem := { s.mem with cap := none } } = .next t ∧ c < t.outBuf.length)) ∧
  (∀ (w : Byte) (s : State), (∀ i, decode w ≠ .ok i) →
    ∃ e, performLine (.command w) s = .refused (.reservedWord e)) ∧
  (∀ (v : Bits) (s : State), performLine (.setIn v) s = .refused .overCapacity ↔
    ∃ c, s.mem.cap = some c ∧ c < v.length) ∧
  (∀ s : State, performLine .loopback s = .refused .overCapacity ↔
    ∃ c, s.mem.cap = some c ∧ c < s.outBuf.length) ∧
  (∀ (p : Nat) (s : State), p < s.inBuf.length → (performLine (.flip p) s = .refused .overCapacity ↔
    ∃ c, s.mem.cap = some c ∧ c < s.inBuf.length))

/-- 60_exceptions.md R192: exactly when a command leaves UnsupportedCode. -/
def Obligations.UnsupportedCodeExactly : Prop :=
  ∀ (i : Instr) (s s' : State), exec i s = .next s' → (s'.fault.toNat = 1 ↔
    (i ∈ [Instr.ctidx, .encode, .hdrbld, .frmbld, .decode] ∧ 3 < s.code.toNat) ∨
    (i = .ctlen ∧ s.n.toNat ∉ [3, 7, 15, 31]))

/-- 60_exceptions.md R193: exactly when a command leaves ValueOutOfRange. -/
def Obligations.ValueOutOfRangeExactly : Prop :=
  ∀ (i : Instr) (s s' : State), exec i s = .next s' → (s'.fault.toNat = 2 ↔
    (i = .hdrbld ∧ 65535 < s.len.toNat ∧ s.code.toNat ≤ 3) ∨
    (i = .frmbld ∧ 65535 < s.inBuf.length ∧ s.code.toNat ≤ 3))

/-- 60_exceptions.md R194: exactly when a command leaves HeaderCorrupt: all 32 header blocks decoded,
and the number in header bits 16..31 above 3. -/
def Obligations.HeaderCorruptExactly : Prop :=
  ∀ (i : Instr) (s s' : State), exec i s = .next s' → (s'.fault.toNat = 3 ↔
    i ∈ [Instr.hdrdec, .frmprs] ∧ 96 ≤ s.inBuf.length ∧
      ∃ h, Decoder.decode s.ct .repetition3_1 (slice s.inBuf 0 96) = .ok h ∧
        3 < (Finset.range 16).sum fun i => (bitAt h (16 + i)).toNat * 2 ^ (15 - i))

/-- 60_exceptions.md R196 (with the spec's decision D15): exactly when a command leaves
FrameTruncated. -/
def Obligations.FrameTruncatedExactly : Prop :=
  ∀ (i : Instr) (s s' : State), exec i s = .next s' → (s'.fault.toNat = 5 ↔
    (i ∈ [Instr.hdrdec, .frmprs] ∧ s.inBuf.length < 96) ∨
    (i = .decode ∧ ∃ c : Code, s.code.toNat = c.index ∧ s.inBuf.length % c.n ≠ 0) ∨
    (i = .frmprs ∧ 96 ≤ s.inBuf.length ∧ ∃ len c,
      HeaderCodec.decodeHeader s.ct (slice s.inBuf 0 96) = .ok (len, c) ∧
      ((s.inBuf.length - 96) % c.n ≠ 0 ∨
        ∃ d, Decoder.decode s.ct c (slice s.inBuf 96 s.inBuf.length) = .ok d ∧ d.length < len)))

/-- From 60_exceptions.md sections 1 and 44_decoder.md section 2: DECODE leaves UncorrectableBlock
exactly when its input tiles and some block has a nonzero syndrome equal to no column of `H`. That it
does so whatever a finite `CAP` is, is the model's choice, log entry 19. -/
def Obligations.UncorrectableBlockExactly : Prop :=
  ∀ (s : State) (c : Code), s.ready = true → s.code.toNat = c.index → s.inBuf.length % c.n = 0 →
    (exec .decode s = .next (outFault s [] 4) ↔
      ∃ b, b < s.inBuf.length / c.n ∧
        let y := syndromeOf s.ct c (slice s.inBuf (b * c.n) ((b + 1) * c.n))
        y ≠ zeros c.r ∧ ∀ p, p < c.n → (s.ct.par c).col c.r p ≠ y)

/-! ### The CodeTable commands -/

/-- 40_codetable.md R111 (register protocol: the spec's decision D27): CTIDX. -/
def Obligations.CtidxWritesLengthAndDataBits : Prop :=
  decode 0b00000000#8 = .ok .ctidx ∧
  ∀ s : State, s.ready = true →
    (∀ row ∈ params, s.code.toNat = row.1 →
      exec .ctidx s =
        .next (faultKeep { s with n := BitVec.ofNat 16 row.2.1, k := BitVec.ofNat 16 row.2.2 } 0)) ∧
    (3 < s.code.toNat → exec .ctidx s = .next (faultKeep s 1))

/-- 40_codetable.md R112 (register protocol: the spec's decision D27): CTLEN, with no nearest match
and no default. -/
def Obligations.CtlenWritesIndexAndDataBits : Prop :=
  decode 0b00000001#8 = .ok .ctlen ∧
  ∀ s : State, s.ready = true →
    (∀ row ∈ params, s.n.toNat = row.2.1 →
      exec .ctlen s =
        .next (faultKeep { s with code := BitVec.ofNat 16 row.1, k := BitVec.ofNat 16 row.2.2 } 0)) ∧
    ((∀ row ∈ params, s.n.toNat ≠ row.2.1) → exec .ctlen s = .next (faultKeep s 1))

/-- From 40_codetable.md section 5 (its own derivation from the two lookups): CTIDX then CTLEN, and
CTLEN then CTIDX, give back what was there. -/
def Obligations.LookupCommandsAreInverse : Prop :=
  ∀ s s₁ : State,
    (exec .ctidx s = .next s₁ → s₁.fault = 0 →
      ∃ s₂, exec .ctlen s₁ = .next s₂ ∧ s₂.fault = 0 ∧ s₂.code = s.code ∧ s₂.k = s₁.k ∧ s₂.n = s₁.n) ∧
    (exec .ctlen s = .next s₁ → s₁.fault = 0 →
      ∃ s₂, exec .ctidx s₁ = .next s₂ ∧ s₂.fault = 0 ∧ s₂.n = s.n ∧ s₂.k = s₁.k ∧ s₂.code = s₁.code)

/-! ### The Encoder -/

/-- 41_encoder.md R124: ENCODE, its fault, its result, its frame, and the rule's two examples (the
second under the spec's default table, decision D8). -/
def Obligations.EncodeWritesTheCodewords : Prop :=
  decode 0b00010000#8 = .ok .encode ∧
  (∀ s : State, s.ready = true →
    (3 < s.code.toNat → exec .encode s = .next (outFault s [] 1)) ∧
    (∀ c : Code, s.code.toNat = c.index → Fits s (c.n * ceilDiv s.inBuf.length c.k) →
      exec .encode s = .next (outFault s (Encoder.encode s.ct c s.inBuf) 0))) ∧
  (∀ t : CodeTable, t.valid = true → Encoder.encode t .repetition3_1 (row 2 0b10) = row 6 0b111000) ∧
  Encoder.encode refTable .hamming7_4 (row 5 0b01101) = row 14 0b11001101101000

/-- 41_encoder.md R122, with R121 and R123: `OUT` after ENCODE bit by bit, under every table. Bit `j`
of codeword `b` is the parity of the bits of data block `b` that column `j` of `G` selects; a data bit
past the end of `IN` is a padding zero. -/
def Obligations.EncodeComputesEveryCodewordBit : Prop :=
  ∀ (s : State) (c : Code), s.ready = true → s.code.toNat = c.index →
    Fits s (c.n * ceilDiv s.inBuf.length c.k) →
    ∃ v : Bits, exec .encode s = .next (outFault s v 0) ∧
      v.length = c.n * ceilDiv s.inBuf.length c.k ∧
      ∀ b j, b < ceilDiv s.inBuf.length c.k → j < c.n →
        bitAt v (b * c.n + j) =
          parity c.k fun i => bitAt s.inBuf (b * c.k + i) && (s.ct.gen c).at i j

/-- 41_encoder.md R121: the padding, its length and its bits. -/
def Obligations.PaddingIsTheSpecs : Prop :=
  ∀ (c : Code) (d : Bits),
    (Encoder.pad c d).length = c.k * ceilDiv d.length c.k ∧
    (Encoder.pad c d).length = d.length + (c.k - d.length % c.k) % c.k ∧
    (d.length % c.k = 0 → Encoder.pad c d = d) ∧
    (d.length % c.k ≠ 0 → Encoder.pad c d = d ++ List.replicate (c.k - d.length % c.k) false) ∧
    (c.k - d.length % c.k) % c.k ≤ c.k - 1 ∧ Encoder.pad c [] = []

/-- From 41_encoder.md section 3 (the spec's own derivation): ENCODE is linear over GF(2) on data of
one length, and all-zero data give an all-zero result. -/
def Obligations.EncodeIsLinear : Prop :=
  ∀ (t : CodeTable) (c : Code) (x y : Bits), x.length = y.length →
    Encoder.encode t c (xorBits x y) = xorBits (Encoder.encode t c x) (Encoder.encode t c y) ∧
    Encoder.encode t c (zeros x.length) = zeros (c.n * ceilDiv x.length c.k)

/-- From 41_encoder.md section 3 and 30_encoding.md section 2 (the spec's own derivation): under a
valid table the data bits stand unchanged and in order in the last `k` positions of each codeword. -/
def Obligations.EncodeKeepsTheDataBits : Prop :=
  ∀ (s s' : State) (c : Code), s.Usable → s.code.toNat = c.index → exec .encode s = .next s' →
    ∀ b i, b < ceilDiv s.inBuf.length c.k → i < c.k →
      bitAt s'.outBuf (b * c.n + c.r + i) = bitAt s.inBuf (b * c.k + i)

/-! ### The HeaderCodec -/

/-- From 42_header_codec.md section 3 (R136): HDRBLD, its two faults in their order, and the 32 bits,
most significant first (the spec's decisions D10 and D11). That both faults come before a finite `CAP`
is the model's choice, log entry 19. -/
def Obligations.HdrbldWritesBothFields : Prop :=
  decode 0b00100000#8 = .ok .hdrbld ∧
  ∀ s : State, s.ready = true →
    (3 < s.code.toNat → exec .hdrbld s = .next (outFault s [] 1)) ∧
    (s.code.toNat ≤ 3 → 65535 < s.len.toNat → exec .hdrbld s = .next (outFault s [] 2)) ∧
    (s.code.toNat ≤ 3 → s.len.toNat ≤ 65535 → Fits s 32 →
      ∃ v : Bits, exec .hdrbld s = .next (outFault s v 0) ∧ v.length = 32 ∧
        ∀ i, i < 16 → bitAt v i = s.len.getLsbD (15 - i) ∧ bitAt v (16 + i) = s.code.getLsbD (15 - i))

/-- 42_header_codec.md R139 (the refusal: the spec's decision D12): HDRENC. -/
def Obligations.HdrencEncodesThirtyTwoBits : Prop :=
  decode 0b00100001#8 = .ok .hdrenc ∧
  (∀ s : State, s.ready = true →
    (s.inBuf.length ≠ 32 → exec .hdrenc s = .refused .headerNot32Bits) ∧
    (s.inBuf.length = 32 → Fits s 96 →
      exec .hdrenc s = .next (outFault s (Encoder.encode s.ct .repetition3_1 s.inBuf) 0))) ∧
  (∀ t : CodeTable, t.valid = true →
    Encoder.encode t .repetition3_1 (row 32 0b00000000000001010000000000000001) = exampleHeader)

/-- From 30_encoding.md section 3 (the spec's own derivation): under a valid table HDRENC writes every
header bit three times. -/
def Obligations.HdrencTriplesEveryHeaderBit : Prop :=
  ∀ s : State, s.Usable → s.inBuf.length = 32 → Fits s 96 →
    ∃ v : Bits, exec .hdrenc s = .next (outFault s v 0) ∧ v.length = 96 ∧
      ∀ i, i < 32 → bitAt v (3 * i) = bitAt s.inBuf i ∧ bitAt v (3 * i + 1) = bitAt s.inBuf i ∧
        bitAt v (3 * i + 2) = bitAt s.inBuf i

/-- 42_header_codec.md R142 (the spec's decision D13): HDRDEC uses the first 96 bits only; on a fault
`LEN` and `CODE` keep their values, and `OUT` is never changed. Last, the rule's example, with and
without one flipped bit. -/
def Obligations.HdrdecWritesLengthAndIndex : Prop :=
  decode 0b00100010#8 = .ok .hdrdec ∧
  (∀ s : State, s.ready = true →
    (s.inBuf.length < 96 → exec .hdrdec s = .next (faultKeep s 5)) ∧
    (96 ≤ s.inBuf.length →
      (∀ f, HeaderCodec.decodeHeader s.ct (slice s.inBuf 0 96) = .error f →
        exec .hdrdec s = .next (faultKeep s f.number.toNat)) ∧
      (∀ len c, HeaderCodec.decodeHeader s.ct (slice s.inBuf 0 96) = .ok (len, c) →
        exec .hdrdec s = .next (faultKeep
          { s with len := BitVec.ofNat 32 len, code := BitVec.ofNat 16 c.index } 0)))) ∧
  (∀ (s : State) (p : Nat), s.Usable →
    s.inBuf = exampleHeader ∨ (p < 96 ∧ s.inBuf = flipBit exampleHeader p) →
    exec .hdrdec s = .next (faultKeep { s with len := 5, code := 1 } 0))

/-- From 42_header_codec.md section 4 and 44_decoder.md section 3 (the spec's own derivation): under a
valid table HDRDEC completes on every `IN` of at least 96 bits; each header bit is the majority of its
three bits, and the only fault is HeaderCorrupt, for an index above 3. -/
def Obligations.HdrdecDecodesByMajority : Prop :=
  ∀ s : State, s.Usable → 96 ≤ s.inBuf.length →
    (headerField s.inBuf 16 ≤ 3 → exec .hdrdec s = .next (faultKeep
      { s with
        len := BitVec.ofNat 32 (headerField s.inBuf 0)
        code := BitVec.ofNat 16 (headerField s.inBuf 16) } 0)) ∧
    (3 < headerField s.inBuf 16 → exec .hdrdec s = .next (faultKeep s 3))

/-- 42_header_codec.md R143: HDRBLD, LOOPBACK, HDRENC, LOOPBACK, HDRDEC gives back `LEN` and `CODE`,
whatever the host writes to `LEN` and `CODE` before HDRDEC. -/
def Obligations.HeaderRecoversItsParameters : Prop :=
  ∀ (s : State) (x : Reg32) (y : Reg16), s.Usable → s.len.toNat ≤ 65535 → s.code.toNat ≤ 3 →
    Fits s 96 →
    ∃ s₁ s₂ s₃, exec .hdrbld s = .next s₁ ∧ exec .hdrenc (s₁.setIn s₁.outBuf) = .next s₂ ∧
      exec .hdrdec (((s₂.setIn s₂.outBuf).setLen x).setCode y) = .next s₃ ∧
      s₃.len = s.len ∧ s₃.code = s.code ∧ s₃.fault = 0

/-! ### The FrameAssembler -/

/-- From 43_frame_assembler.md (R151): FRMBLD, its faults in their order, its result, and the rule's two
examples (the second under the spec's default table, decision D8). `LEN` is not read; nothing but `OUT` and FAULT is written. That the faults come before a
finite `CAP` is the model's choice, log entry 19. -/
def Obligations.FrmbldWritesHeaderThenPayload : Prop :=
  decode 0b00110000#8 = .ok .frmbld ∧
  (∀ s : State, s.ready = true →
    (3 < s.code.toNat → exec .frmbld s = .next (outFault s [] 1)) ∧
    (∀ c : Code, s.code.toNat = c.index →
      (65535 < s.inBuf.length → exec .frmbld s = .next (outFault s [] 2)) ∧
      (s.inBuf.length ≤ 65535 → Fits s (96 + c.n * ceilDiv s.inBuf.length c.k) →
        exec .frmbld s = .next (outFault s
          (Encoder.encode s.ct .repetition3_1 (u16 s.inBuf.length ++ u16 c.index) ++
            Encoder.encode s.ct c s.inBuf) 0)))) ∧
  (∀ s : State, s.Usable → s.code = 0 → s.inBuf = [true] → Fits s 99 →
    exec .frmbld s = .next (outFault s
      (zeros 45 ++ [true, true, true] ++ zeros 48 ++ [true, true, true]) 0)) ∧
  (∀ s : State, s.ready = true → s.ct = refTable → s.code = 1 → s.inBuf = row 5 0b01101 → Fits s 110 →
    exec .frmbld s = .next (outFault s (exampleHeader ++ row 14 0b11001101101000) 0))

/-- From 43_frame_assembler.md and 30_encoding.md section 4 (the spec's own derivation): under a valid
table a frame is 96 header bits, each header bit three times, and then `ceil(L / k)` codewords; its
length is `96 + n * ceil(L / k)`, and the data bits stand in the data positions. -/
def Obligations.FrameLayoutIsTheWireFormat : Prop :=
  ∀ (s : State) (c : Code), s.Usable → s.code.toNat = c.index → s.inBuf.length ≤ 65535 →
    Fits s (96 + c.n * ceilDiv s.inBuf.length c.k) →
    ∃ v : Bits, exec .frmbld s = .next (outFault s v 0) ∧
      v.length = 96 + c.n * ceilDiv s.inBuf.length c.k ∧
      (∀ i q, i < 16 → q < 3 → bitAt v (3 * i + q) = s.inBuf.length.testBit (15 - i)) ∧
      (∀ i q, i < 16 → q < 3 → bitAt v (48 + 3 * i + q) = c.index.testBit (15 - i)) ∧
      (∀ b i, b < ceilDiv s.inBuf.length c.k → i < c.k →
        bitAt v (96 + b * c.n + c.r + i) = bitAt s.inBuf (b * c.k + i))

/-- From 43_frame_assembler.md (the spec's own derivation): FRMBLD equals HDRBLD, HDRENC and ENCODE put
together. -/
def Obligations.FrmbldEqualsItsParts : Prop :=
  ∀ s : State, s.ready = true → s.code.toNat ≤ 3 → s.inBuf.length ≤ 65535 → s.mem.cap = none →
    ∃ a b p f, exec .hdrbld { s with len := BitVec.ofNat 32 s.inBuf.length } = .next a ∧
      exec .hdrenc (a.setIn a.outBuf) = .next b ∧ exec .encode s = .next p ∧
      exec .frmbld s = .next f ∧ f.outBuf = b.outBuf ++ p.outBuf ∧
      a.fault = 0 ∧ b.fault = 0 ∧ p.fault = 0 ∧ f.fault = 0

/-! ### The Decoder -/

/-- 44_decoder.md R167, under every table: what one block decodes to. A zero syndrome leaves the block
as it is; a syndrome that is column `p` flips bit `p`, the first such `p`; any other is
UncorrectableBlock; the data are the last `k` bits. -/
def Obligations.DecBlockPutsTheFourStepsTogether : Prop :=
  ∀ (t : CodeTable) (c : Code) (b : Bits), b.length = c.n →
    (syndromeOf t c b = zeros c.r → Decoder.decBlock t c b = .ok (slice b c.r c.n)) ∧
    (syndromeOf t c b ≠ zeros c.r →
      (∀ p, p < c.n → (t.par c).col c.r p = syndromeOf t c b →
        (∀ q, q < p → (t.par c).col c.r q ≠ syndromeOf t c b) →
        ∃ d, Decoder.decBlock t c b = .ok d ∧ d.length = c.k ∧
          ∀ i, i < c.k → bitAt d i = (bitAt b (c.r + i) ^^ decide (c.r + i = p))) ∧
      ((∀ p, p < c.n → (t.par c).col c.r p ≠ syndromeOf t c b) →
        Decoder.decBlock t c b = .error .uncorrectableBlock))

/-- From 44_decoder.md section 2 (R171; the order of the faults: the spec's decisions D14 and D24):
DECODE. That the faults come before a finite `CAP` is the model's choice, log entry 19. -/
def Obligations.DecodeWritesTheDecodedBlocks : Prop :=
  decode 0b01000000#8 = .ok .decode ∧
  (∀ s : State, s.ready = true →
    (3 < s.code.toNat → exec .decode s = .next (outFault s [] 1)) ∧
    (∀ c : Code, s.code.toNat = c.index →
      (s.inBuf.length % c.n ≠ 0 → exec .decode s = .next (outFault s [] 5)) ∧
      (∀ f, Decoder.decode s.ct c s.inBuf = .error f →
        exec .decode s = .next (outFault s [] f.number.toNat)) ∧
      (∀ v, Decoder.decode s.ct c s.inBuf = .ok v →
        v.length = c.k * (s.inBuf.length / c.n) ∧
        (Fits s v.length → exec .decode s = .next (outFault s v 0))))) ∧
  (∀ t : CodeTable, t.valid = true →
    Decoder.decode t .repetition3_1 (row 6 0b110001) = .ok (row 2 0b10)) ∧
  Decoder.decode refTable .hamming7_4 (row 14 0b11001101101000) = .ok (row 8 0b01101000)

/-- From 40_codetable.md section 3 and 44_decoder.md (the spec's own derivation): under a valid table
DECODE completes on every input that tiles, and its answer is the one data sequence whose codewords
differ from `IN` in at most one bit per block. -/
def Obligations.DecodeFindsTheNearestCodewords : Prop :=
  ∀ (s : State) (c : Code), s.Usable → s.code.toNat = c.index → s.inBuf.length % c.n = 0 →
    Fits s (c.k * (s.inBuf.length / c.n)) →
    ∃ v : Bits, exec .decode s = .next (outFault s v 0) ∧
      v.length = c.k * (s.inBuf.length / c.n) ∧
      OneFlipPer (Encoder.encode s.ct c v) s.inBuf 0 c.n (s.inBuf.length / c.n) ∧
      ∀ v' : Bits, v'.length = v.length →
        OneFlipPer (Encoder.encode s.ct c v') s.inBuf 0 c.n (s.inBuf.length / c.n) → v' = v

/-- 44_decoder.md R174: data encoded, at most one bit of each codeword flipped at any position, then
DECODE: the padded data come back. One flipped codeword bit in all, and none, are cases of it. -/
def Obligations.DecodeCorrectsOneErrorPerCodeword : Prop :=
  ∀ (s : State) (c : Code) (d : Bits), s.Usable → s.code.toNat = c.index →
    s.inBuf.length = c.n * ceilDiv d.length c.k →
    OneFlipPer (Encoder.encode s.ct c d) s.inBuf 0 c.n (ceilDiv d.length c.k) →
    Fits s (c.k * ceilDiv d.length c.k) →
    exec .decode s =
      .next (outFault s (d ++ List.replicate (c.k * ceilDiv d.length c.k - d.length) false) 0)

/-- From 44_decoder.md section 3 (the spec's own derivation): for code 0 DECODE is a majority vote. -/
def Obligations.RepetitionCodeDecodesByMajority : Prop :=
  ∀ (s : State) (m : Nat), s.Usable → s.code = 0 → s.inBuf.length = 3 * m → Fits s m →
    ∃ v : Bits, exec .decode s = .next (outFault s v 0) ∧ v.length = m ∧
      ∀ i, i < m → bitAt v i =
        majority (bitAt s.inBuf (3 * i)) (bitAt s.inBuf (3 * i + 1)) (bitAt s.inBuf (3 * i + 2))

/-- From 44_decoder.md section 3 (the spec's own derivation): two flips in one codeword always decode,
with FAULT = 0, to the wrong data of a codeword that differs from the sent one in three positions. -/
def Obligations.TwoErrorsDecodeToWrongData : Prop :=
  ∀ (s : State) (c : Code) (d : Bits), s.Usable → s.code.toNat = c.index → d.length = c.k →
    s.inBuf.length = c.n → differences (Encoder.encBlock s.ct c d) s.inBuf 0 c.n = 2 → Fits s c.k →
    ∃ d' : Bits, exec .decode s = .next (outFault s d' 0) ∧ d'.length = c.k ∧ d' ≠ d ∧
      differences (Encoder.encBlock s.ct c d') s.inBuf 0 c.n = 1 ∧
      differences (Encoder.encBlock s.ct c d) (Encoder.encBlock s.ct c d') 0 c.n = 3

/-- From 44_decoder.md section 1 (the spec's own derivation): under a valid table no command leaves
UncorrectableBlock. -/
def Obligations.UncorrectableBlockNeverHappensUnderAValidTable : Prop :=
  ∀ (i : Instr) (s s' : State), s.ct.valid = true → exec i s = .next s' → s'.fault.toNat ≠ 4

/-- From 40_codetable.md section 3 (the spec's own derivation): what any command does depends on the
generator matrices only, not on which valid parity-check matrices go with them. -/
def Obligations.CommandsDoNotDependOnTheParityMatrix : Prop :=
  ∀ (i : Instr) (s : State) (ct : CodeTable), s.ct.valid = true → ct.valid = true →
    (∀ c, ct.gen c = s.ct.gen c) →
    (∀ s', exec i s = .next s' → exec i { s with ct := ct } = .next { s' with ct := ct }) ∧
    (∀ r, exec i s = .refused r → exec i { s with ct := ct } = .refused r)

/-- From 40_codetable.md section 3 (the spec's own derivation): in a valid table every nonzero sequence
of `r` bits is a column of `H`, exactly once, and the lookup finds it. -/
def Obligations.EveryNonzeroSyndromeIsOneColumn : Prop :=
  ∀ (t : CodeTable) (c : Code) (y : Bits), t.valid = true → y.length = c.r → y ≠ zeros c.r →
    ∃ p, p < c.n ∧ (t.par c).col c.r p = y ∧ Decoder.locate t c y = some p ∧
      ∀ q, q < c.n → (t.par c).col c.r q = y → q = p

/-- From 40_codetable.md section 3 (the spec's own derivation): under a valid table the syndrome is
all zero exactly on the codewords. -/
def Obligations.SyndromeIsZeroExactlyOnCodewords : Prop :=
  ∀ (t : CodeTable) (c : Code) (b : Bits), t.valid = true → b.length = c.n →
    (Decoder.syndrome t c b = zeros c.r ↔ ∃ d, d.length = c.k ∧ b = Encoder.encBlock t c d)

/-- From 40_codetable.md section 3 (the spec's own derivation): validity forces the generator matrix of
code 0 to be the single row `1 1 1`. -/
def Obligations.ValidityForcesTheRepetitionCode : Prop :=
  ∀ t : CodeTable, t.valid = true → t.gen .repetition3_1 = [[true, true, true]]

/-! ### The FrameParser -/

/-- From 45_frame_parser.md (R181; the short payload: the spec's decision D15): FRMPRS, line by
line, and the rule's two examples (the second under the spec's default table, decision D8). That the
faults come before a finite `CAP` is the model's choice, log entry 19. -/
def Obligations.FrmprsFollowsItsChecks : Prop :=
  decode 0b01010000#8 = .ok .frmprs ∧
  (∀ s : State, s.ready = true →
    (s.inBuf.length < 96 → exec .frmprs s = .next (outFault s [] 5)) ∧
    (96 ≤ s.inBuf.length →
      (∀ f, HeaderCodec.decodeHeader s.ct (slice s.inBuf 0 96) = .error f →
        exec .frmprs s = .next (outFault s [] f.number.toNat)) ∧
      (∀ len c, HeaderCodec.decodeHeader s.ct (slice s.inBuf 0 96) = .ok (len, c) →
        (∀ f, Decoder.decode s.ct c (slice s.inBuf 96 s.inBuf.length) = .error f →
          exec .frmprs s = .next (outFault s [] f.number.toNat)) ∧
        (∀ d, Decoder.decode s.ct c (slice s.inBuf 96 s.inBuf.length) = .ok d →
          (d.length < len → exec .frmprs s = .next (outFault s [] 5)) ∧
          (len ≤ d.length → Fits s len →
            exec .frmprs s = .next (outFault s (slice d 0 len) 0)))))) ∧
  (∀ s : State, s.Usable → Fits s 1 →
    s.inBuf = zeros 45 ++ [true, true, true] ++ zeros 48 ++ [true, false, true] →
    exec .frmprs s = .next (outFault s [true] 0)) ∧
  (∀ s : State, s.ready = true → s.ct = refTable → Fits s 5 →
    s.inBuf = exampleHeader ++ row 14 0b11001101101000 →
    exec .frmprs s = .next (outFault s (row 5 0b01101) 0))

/-- From 45_frame_parser.md and 44_decoder.md section 3 (the spec's own derivation): what FRMPRS answers
on every `IN` of at least 96 bits under a valid table. That the faults come before a finite `CAP` is
the model's choice, log entry 19. -/
def Obligations.FrmprsOnEveryFrame : Prop :=
  ∀ s : State, s.Usable → 96 ≤ s.inBuf.length →
    (3 < headerField s.inBuf 16 → exec .frmprs s = .next (outFault s [] 3)) ∧
    (∀ c : Code, headerField s.inBuf 16 = c.index →
      ((s.inBuf.length - 96) % c.n ≠ 0 → exec .frmprs s = .next (outFault s [] 5)) ∧
      ((s.inBuf.length - 96) % c.n = 0 →
        (c.k * ((s.inBuf.length - 96) / c.n) < headerField s.inBuf 0 →
          exec .frmprs s = .next (outFault s [] 5)) ∧
        (headerField s.inBuf 0 ≤ c.k * ((s.inBuf.length - 96) / c.n) →
          Fits s (headerField s.inBuf 0) →
          ∃ d : Bits, exec .frmprs s = .next (outFault s (d.take (headerField s.inBuf 0)) 0) ∧
            d.length = c.k * ((s.inBuf.length - 96) / c.n) ∧
            OneFlipPer (Encoder.encode s.ct c d) (s.inBuf.drop 96) 0 c.n
              ((s.inBuf.length - 96) / c.n))))

/-- From 45_frame_parser.md, 42_header_codec.md section 4 and 44_decoder.md section 3: FRMBLD, a channel
that flips at most one bit of each header group and of each payload codeword, FRMPRS: the data come
back exactly. This is the form that R185 marks as the spec's own derivation from R144 and R174; R185's
property of the source document, one flipped frame bit or none, is a case of it. -/
def Obligations.FrameRoundTripUnderOneFlipPerBlock : Prop :=
  ∀ (s : State) (c : Code), s.Usable → s.code.toNat = c.index → s.inBuf.length ≤ 65535 →
    Fits s (96 + c.n * ceilDiv s.inBuf.length c.k) →
    ∃ s₁, exec .frmbld s = .next s₁ ∧ s₁.fault = 0 ∧
      ∀ s₂ : State, s₂.Usable → s₂.ct = s.ct → Fits s₂ s.inBuf.length →
        s₂.inBuf.length = s₁.outBuf.length →
        OneFlipPer s₁.outBuf s₂.inBuf 0 3 32 →
        OneFlipPer s₁.outBuf s₂.inBuf 96 c.n (ceilDiv s.inBuf.length c.k) →
        exec .frmprs s₂ = .next (outFault s₂ s.inBuf 0)

/-! ### The host's lines -/

/-- 30_encoding.md R91 (the spec's decisions D20 and D28): the host actions. An EXPECT has no effect
on the block; that the host keeps the comparison is the model's choice, log entry 7. -/
def Obligations.HostActionsWriteAndCompare : Prop :=
  ∀ s : State,
    (∀ v : Bits, Fits s v.length →
      performLine (.setIn v) s = .next { s with mem := { s.mem with inBuf := v } }) ∧
    (∀ v : Reg16, performLine (.setCode v) s = .next { s with code := v }) ∧
    (∀ v : Reg16, performLine (.setN v) s = .next { s with n := v }) ∧
    (∀ v : Reg16, performLine (.setK v) s = .next { s with k := v }) ∧
    (∀ v : Reg32, performLine (.setLen v) s = .next { s with len := v }) ∧
    (∀ (v : Nat) (reg : RegName), ∃ e, performLine (.expectReg reg v) s = .next { s with expectsHeld := e }) ∧
    (∀ v : Bits, performLine (.expectOut v) s =
      .next { s with expectsHeld := s.expectsHeld && decide (s.outBuf = v) }) ∧
    (∀ v : Nat, performLine (.expectReg .code v) s =
      .next { s with expectsHeld := s.expectsHeld && decide (s.code.toNat = v) }) ∧
    (∀ v : Nat, performLine (.expectReg .n v) s =
      .next { s with expectsHeld := s.expectsHeld && decide (s.n.toNat = v) }) ∧
    (∀ v : Nat, performLine (.expectReg .k v) s =
      .next { s with expectsHeld := s.expectsHeld && decide (s.k.toNat = v) }) ∧
    (∀ v : Nat, performLine (.expectReg .len v) s =
      .next { s with expectsHeld := s.expectsHeld && decide (s.len.toNat = v) }) ∧
    (∀ v : Nat, performLine (.expectReg .status v) s =
      .next { s with expectsHeld := s.expectsHeld && decide (s.status.toNat = v) }) ∧
    (∀ f : FaultCode, performLine (.expectFault f) s =
      .next { s with expectsHeld := s.expectsHeld && decide (s.status.extractLsb' 0 3 = f.number) })

/-- From 30_encoding.md section 5 (R92, the spec's decision D20): each pseudo-line does what its
expansion does. That SELLEN and SELIDX perform their two actions in the one step of their line is the
model's choice, log entry 9. -/
def Obligations.PseudoLinesDoTheirExpansion : Prop :=
  ∀ s : State,
    (Fits s s.outBuf.length →
      performLine .loopback s = .next { s with mem := { s.mem with inBuf := s.outBuf } }) ∧
    (∀ p, p < s.inBuf.length → Fits s s.inBuf.length →
      ∃ v : Bits, performLine (.flip p) s = .next { s with mem := { s.mem with inBuf := v } } ∧
        v.length = s.inBuf.length ∧ ∀ i, bitAt v i = (bitAt s.inBuf i ^^ decide (i = p))) ∧
    (∀ n : Reg16, performLine (.selLen n) s = performLine (.command 0x01) { s with n := n }) ∧
    (∀ c : Reg16, performLine (.selIdx c) s = performLine (.command 0x00) { s with code := c })

/-- The model's choice, log entry 8: a FLIP outside `IN`, to which 30_encoding.md section 5 gives no
effect, stops the model, and nothing else does. -/
def Obligations.OnlyFlipOutsideInStopsTheModel : Prop :=
  ∀ (s : State) (e : Fault), step s = .fault e ↔
    e = .flipOutOfRange ∧ ∃ p rest, s.script = .flip p :: rest ∧ s.inBuf.length ≤ p

/-- From 10_state.md section 7 and 20_memory.md section 5: no line that is no command writes `OUT`,
`STATUS`, the table or the capacity. -/
def Obligations.HostWritesNeitherOutNorStatusNorTable : Prop :=
  ∀ (l : Line) (s s' : State), (∀ w, l ≠ .command w) → (∀ n, l ≠ .selLen n) → (∀ c, l ≠ .selIdx c) →
    performLine l s = .next s' →
      s'.outBuf = s.outBuf ∧ s'.status = s.status ∧ s'.ct = s.ct ∧ s'.mem.cap = s.mem.cap

/-- From 10_state.md section 8: every line performed takes itself off the script and raises the line
index by 1, whatever the line does; no command changes the order of the lines. -/
def Obligations.EveryLineAdvancesTheScriptByOne : Prop :=
  ∀ (s s' : State) (l : Line) (rest : Script), s.script = l :: rest → step s = .next s' →
    s'.script = rest ∧ s'.line = s.line + 1
end

