-- ==== Sys2Proof/Laws/Bits.lean ====
section
/-! SUPPORT. The small lemmas of bit sequences, GF(2) sums, matrices and blocks. -/

namespace Sys2Proof.Machine

/-! ### Reading a bit -/

@[simp] theorem bitAt_nil (i : Nat) : bitAt [] i = false := rfl

@[simp] theorem bitAt_cons_zero (b : Bit) (s : Bits) : bitAt (b :: s) 0 = b := rfl

@[simp] theorem bitAt_cons_succ (b : Bit) (s : Bits) (i : Nat) : bitAt (b :: s) (i + 1) = bitAt s i := rfl

theorem bitAt_of_length_le {s : Bits} {i : Nat} (h : s.length ≤ i) : bitAt s i = false := by
  exact List.getD_eq_default _ _ h

theorem bitAt_eq_getElem {s : Bits} {i : Nat} (h : i < s.length) : bitAt s i = s[i] := by
  simp [bitAt, h]

theorem bits_ext {s t : Bits} (hl : s.length = t.length)
    (h : ∀ i, i < s.length → bitAt s i = bitAt t i) : s = t := by
  refine List.ext_getElem hl fun i h₁ h₂ => ?_
  rw [← bitAt_eq_getElem h₁, ← bitAt_eq_getElem h₂, h i h₁]

theorem bitAt_range_map (m : Nat) (f : Nat → Bit) (i : Nat) :
    bitAt ((List.range m).map f) i = if i < m then f i else false := by
  split
  · rename_i h
    rw [bitAt_eq_getElem (by simpa using h)]; simp
  · rename_i h
    exact bitAt_of_length_le (by simpa using h)

theorem bitAt_append (s t : Bits) (i : Nat) :
    bitAt (s ++ t) i = if i < s.length then bitAt s i else bitAt t (i - s.length) := by
  simp only [bitAt, List.getD_eq_getElem?_getD, List.getElem?_append]
  split <;> rfl

theorem bitAt_take (s : Bits) (m i : Nat) :
    bitAt (s.take m) i = if i < m then bitAt s i else false := by
  simp only [bitAt, List.getD_eq_getElem?_getD, List.getElem?_take]
  split <;> rfl

theorem bitAt_drop (s : Bits) (m i : Nat) : bitAt (s.drop m) i = bitAt s (m + i) := by
  simp [bitAt, List.getD_eq_getElem?_getD, List.getElem?_drop]

/-! ### Slices, zeros, flips -/

theorem bitAt_slice (s : Bits) (a b i : Nat) :
    bitAt (slice s a b) i = if i < b - a then bitAt s (a + i) else false := by
  rw [slice, bitAt_take, bitAt_drop]

theorem slice_length (s : Bits) (a b : Nat) : (slice s a b).length = min (b - a) (s.length - a) := by
  simp [slice]

theorem slice_length_of_le {s : Bits} {a b : Nat} (h : b ≤ s.length) : (slice s a b).length = b - a := by
  rw [slice_length]; omega

@[simp] theorem zeros_length (m : Nat) : (zeros m).length = m := by simp [zeros]

@[simp] theorem bitAt_zeros (m i : Nat) : bitAt (zeros m) i = false := by
  by_cases h : i < m
  · rw [bitAt_eq_getElem (by simpa using h)]; simp [zeros]
  · exact bitAt_of_length_le (by simpa using h)

@[simp] theorem flipBit_length (s : Bits) (p : Nat) : (flipBit s p).length = s.length := by
  simp [flipBit]

theorem bitAt_flipBit {s : Bits} {p : Nat} (hp : p < s.length) (i : Nat) :
    bitAt (flipBit s p) i = (bitAt s i ^^ decide (i = p)) := by
  by_cases hi : i < s.length
  · rw [bitAt_eq_getElem (by simpa using hi), bitAt_eq_getElem hi]
    by_cases h : p = i
    · subst h; simp [flipBit]
    · simp [flipBit, h, Ne.symm h]
  · rw [bitAt_of_length_le (by simpa using hi), bitAt_of_length_le (by simpa using hi)]
    simp; omega

theorem eq_zeros_iff {s : Bits} {m : Nat} (h : s.length = m) :
    s = zeros m ↔ ∀ i, i < m → bitAt s i = false := by
  constructor
  · rintro rfl i -; simp
  · intro hz
    exact bits_ext (by simpa using h) fun i hi => by simp [hz i (h ▸ hi)]

/-! ### Sums mod 2 -/

/-- The sum mod 2 of `e(0), ..., e(m-1)`. -/
theorem xorSum_range_succ (m : Nat) (e : Nat → Bit) :
    xorSum ((List.range (m + 1)).map e) = (e 0 ^^ xorSum ((List.range m).map fun i => e (i + 1))) := by
  rw [List.range_succ_eq_map]; simp [xorSum, Function.comp_def]

theorem xorSum_map_xor {α : Type} (l : List α) (f g : α → Bit) :
    xorSum (l.map fun i => f i ^^ g i) = (xorSum (l.map f) ^^ xorSum (l.map g)) := by
  induction l with
  | nil => rfl
  | cons a l ih =>
    simp only [List.map_cons, xorSum, ih]
    cases f a <;> cases g a <;> cases xorSum (l.map f) <;> cases xorSum (l.map g) <;> rfl

theorem xorSum_map_false {α : Type} (l : List α) : xorSum (l.map fun _ => false) = false := by
  induction l with
  | nil => rfl
  | cons a l ih => simpa [xorSum] using ih

theorem xorSum_map_and {α : Type} (l : List α) (b : Bit) (f : α → Bit) :
    xorSum (l.map fun i => b && f i) = (b && xorSum (l.map f)) := by
  cases b with
  | false => simpa using xorSum_map_false l
  | true => simp

/-- Two finite sums mod 2 may be exchanged. -/
theorem xorSum_comm {α β : Type} (l : List α) (l' : List β) (f : α → β → Bit) :
    xorSum (l.map fun i => xorSum (l'.map fun j => f i j)) =
      xorSum (l'.map fun j => xorSum (l.map fun i => f i j)) := by
  induction l with
  | nil => exact (xorSum_map_false l').symm
  | cons a l ih =>
    simp only [List.map_cons, xorSum, ih]
    rw [← xorSum_map_xor]

theorem xorSum_map_congr {α : Type} {l : List α} {f g : α → Bit} (h : ∀ i, i ∈ l → f i = g i) :
    xorSum (l.map f) = xorSum (l.map g) := by
  rw [List.map_congr_left h]

/-- A sum of which only the member at `p` can be nonzero. -/
theorem xorSum_single {m p : Nat} (hp : p < m) (e : Nat → Bit) :
    xorSum ((List.range m).map fun i => decide (i = p) && e i) = e p := by
  induction m generalizing p e with
  | zero => omega
  | succ m ih =>
    rw [xorSum_range_succ]
    cases p with
    | zero =>
      have : ∀ i, i ∈ List.range m → (decide (i + 1 = 0) && e (i + 1)) = false := by simp
      rw [xorSum_map_congr this, xorSum_map_false]; simp
    | succ p =>
      have h := ih (p := p) (by omega) (fun i => e (i + 1))
      simpa using h

/-- A sum of `a + b` members is the sum of the first `a` and the sum of the last `b`. -/
theorem xorSum_range_add (a b : Nat) (e : Nat → Bit) :
    xorSum ((List.range (a + b)).map e) =
      (xorSum ((List.range a).map e) ^^ xorSum ((List.range b).map fun i => e (a + i))) := by
  induction a generalizing e with
  | zero => simp [xorSum]
  | succ a ih =>
    rw [Nat.add_right_comm, xorSum_range_succ, ih, xorSum_range_succ, Bool.xor_assoc]
    simp only [Nat.add_right_comm, Nat.add_assoc]

/-- The sum mod 2 is whether an odd number of members is 1. -/
theorem xorSum_eq_odd_card (m : Nat) (e : Nat → Bit) :
    xorSum ((List.range m).map e) = (((Finset.range m).filter fun i => e i = true).card % 2 == 1) := by
  induction m with
  | zero => rfl
  | succ m ih =>
    rw [xorSum_range_add m 1, ih, Finset.range_add_one, Finset.filter_insert]
    simp only [List.range_one, List.map_cons, List.map_nil, xorSum, Nat.add_zero, Bool.xor_false]
    split
    · rename_i h
      rw [Finset.card_insert_of_notMem (by simp), h]
      generalize ((Finset.range m).filter fun i => e i = true).card = x
      rcases Nat.mod_two_eq_zero_or_one x with hx | hx <;> simp [hx, Nat.add_mod]
    · rename_i h
      simp [Bool.eq_false_iff.mpr h]

/-! ### Products and columns -/

@[simp] theorem vecMul_length (a b : Nat) (d : Bits) (M : Matrix) : (vecMul a b d M).length = b := by
  simp [vecMul]

@[simp] theorem mulVec_length (a b : Nat) (M : Matrix) (v : Bits) : (mulVec a b M v).length = a := by
  simp [mulVec]

@[simp] theorem Matrix.col_length (M : Matrix) (a j : Nat) : (M.col a j).length = a := by
  simp [Matrix.col]

theorem bitAt_vecMul {a b j : Nat} (d : Bits) (M : Matrix) (hj : j < b) :
    bitAt (vecMul a b d M) j = xorSum ((List.range a).map fun i => bitAt d i && M.at i j) := by
  simp [vecMul, bitAt_range_map, hj]

theorem bitAt_mulVec {a b i : Nat} (M : Matrix) (v : Bits) (hi : i < a) :
    bitAt (mulVec a b M v) i = xorSum ((List.range b).map fun j => M.at i j && bitAt v j) := by
  simp [mulVec, bitAt_range_map, hi]

theorem Matrix.bitAt_col {a i : Nat} (M : Matrix) (j : Nat) (hi : i < a) :
    bitAt (M.col a j) i = M.at i j := by
  simp [Matrix.col, bitAt_range_map, hi]

/-! ### Field conversion -/

@[simp] theorem u16_length (v : Nat) : (u16 v).length = 16 := by simp [u16]

theorem bitAt_u16 (v i : Nat) : bitAt (u16 v) i = if i < 16 then v.testBit (15 - i) else false := by
  rw [u16, bitAt_range_map]
  split
  · rw [Nat.testBit_eq_decide_div_mod_eq]; rfl
  · rfl

theorem val_append (s t : Bits) : val (s ++ t) = val s * 2 ^ t.length + val t := by
  induction s with
  | nil => simp [val]
  | cons b s ih => simp only [List.cons_append, val, ih, List.length_append, pow_add]; ring

theorem val_lt (t : Bits) : val t < 2 ^ t.length := by
  induction t with
  | nil => simp [val]
  | cons b t ih => cases b <;> simp [val, pow_succ] <;> omega

/-! ### Blocks -/

@[simp] theorem blocks_length (w : Nat) (s : Bits) : (blocks w s).length = s.length / w := by
  simp [blocks]

theorem slice_drop (s : Bits) (m a b : Nat) : slice (s.drop m) a b = slice s (m + a) (m + b) := by
  simp only [slice, List.drop_drop]
  congr 1; omega

theorem blocks_nil {w : Nat} {s : Bits} (h : s.length < w) : blocks w s = [] := by
  simp [blocks, Nat.div_eq_of_lt h]

/-- The first block, then the blocks of the rest. -/
theorem blocks_cons {w : Nat} {s : Bits} (hw : 0 < w) (h : w ≤ s.length) :
    blocks w s = s.take w :: blocks w (s.drop w) := by
  have hd : s.length / w = (s.length - w) / w + 1 := by
    rw [← Nat.sub_add_cancel h, Nat.add_div_right _ hw]; simp
  simp only [blocks, hd, List.length_drop, List.range_succ_eq_map, List.map_cons, List.map_map]
  congr 1
  · simp [slice]
  · refine List.map_congr_left fun b _ => ?_
    simp only [Function.comp, slice_drop]
    congr 1 <;> simp only [Nat.succ_mul] <;> omega

theorem blocks_append {w : Nat} {s t : Bits} (hw : 0 < w) (hs : s.length = w) :
    blocks w (s ++ t) = s :: blocks w t := by
  rw [blocks_cons hw (by simp [hs]), List.take_left' hs, List.drop_left' hs]

theorem mem_blocks_length {w : Nat} {s b : Bits} (h : b ∈ blocks w s) : b.length = w := by
  simp only [blocks, List.mem_map, List.mem_range] at h
  obtain ⟨i, hi, rfl⟩ := h
  have := Nat.mul_le_mul_right w (Nat.succ_le_of_lt hi)
  rw [slice_length_of_le (le_trans this (Nat.div_mul_le_self _ _))]
  simp [Nat.succ_mul]

/-- The blocks of a concatenation of `w`-bit blocks are those blocks. -/
theorem blocks_flatten {w : Nat} (hw : 0 < w) (l : List Bits) (h : ∀ b, b ∈ l → b.length = w) :
    blocks w l.flatten = l := by
  induction l with
  | nil => exact blocks_nil (by simpa using hw)
  | cons b l ih =>
    rw [List.flatten_cons, blocks_append hw (h b (by simp)), ih fun b hb => h b (by simp [hb])]

/-- A sequence that its blocks tile is their concatenation. -/
theorem flatten_blocks {w : Nat} (hw : 0 < w) (s : Bits) (h : w ∣ s.length) :
    (blocks w s).flatten = s := by
  obtain ⟨m, hm⟩ := h
  induction m generalizing s with
  | zero => rw [blocks_nil (by simpa [hm] using hw)]; exact (List.eq_nil_of_length_eq_zero hm).symm
  | succ m ih =>
    rw [blocks_cons hw (by rw [hm]; exact Nat.le_mul_of_pos_right _ (by omega)), List.flatten_cons,
      ih (s.drop w) (by rw [List.length_drop, hm, Nat.mul_succ]; omega), List.take_append_drop]

theorem flatten_length_of_forall {w : Nat} (l : List Bits) (h : ∀ b, b ∈ l → b.length = w) :
    l.flatten.length = l.length * w := by
  induction l with
  | nil => simp
  | cons b l ih =>
    rw [List.flatten_cons, List.length_append, ih fun b hb => h b (by simp [hb]), h b (by simp),
      List.length_cons]; ring

theorem bitAt_flatten {w : Nat} (l : List Bits) (h : ∀ b, b ∈ l → b.length = w) {b j : Nat}
    (hb : b < l.length) (hj : j < w) : bitAt l.flatten (b * w + j) = bitAt l[b] j := by
  induction l generalizing b with
  | nil => simp at hb
  | cons x l ih =>
    have hx : x.length = w := h x (by simp)
    rw [List.flatten_cons, bitAt_append, hx]
    cases b with
    | zero => simp [hj]
    | succ b =>
      rw [if_neg (by rw [Nat.succ_mul]; omega)]
      have : (b + 1) * w + j - w = b * w + j := by rw [Nat.succ_mul]; omega
      rw [this, ih (fun b hb => h b (by simp [hb])) (by simpa using hb)]
      simp

theorem getElem_blocks {w : Nat} {s : Bits} {b : Nat} (h : b < (blocks w s).length) :
    (blocks w s)[b] = slice s (b * w) ((b + 1) * w) := by
  simp [blocks]

end Sys2Proof.Machine
end

