-- ==== Sys2Proof/Laws/CodeTable.lean ====
section
/-! SUPPORT. The lookups, and what `valid(CT)` gives, condition by condition (40_codetable.md R104). -/

namespace Sys2Proof.Machine

/-! ### The four codes -/

theorem Code.n_pos (c : Code) : 0 < c.n := by cases c <;> decide

theorem Code.k_pos (c : Code) : 0 < c.k := by cases c <;> decide

theorem Code.r_pos (c : Code) : 0 < c.r := by cases c <;> decide

theorem Code.r_add_k (c : Code) : c.r + c.k = c.n := by cases c <;> rfl

theorem Code.n_add_one (c : Code) : c.n + 1 = 2 ^ c.r := by cases c <;> rfl

theorem Code.index_le (c : Code) : c.index ≤ 3 := by cases c <;> decide

theorem Code.mem_all (c : Code) : c ∈ Code.all := by cases c <;> decide

@[simp] theorem Code.byIndex_index (c : Code) : Code.byIndex c.index = some c := by cases c <;> rfl

@[simp] theorem Code.byLength_n (c : Code) : Code.byLength c.n = some c := by cases c <;> rfl

/-- `byIndex` finds exactly the code of that index (40_codetable.md R103). -/
theorem Code.byIndex_eq_some {i : Nat} {c : Code} : Code.byIndex i = some c ↔ i = c.index := by
  refine ⟨fun h => ?_, fun h => h ▸ Code.byIndex_index c⟩
  unfold Code.byIndex at h
  split at h <;> simp_all <;> subst h <;> rfl

/-- `byIndex` fails exactly above 3 (40_codetable.md R103). -/
theorem Code.byIndex_eq_none {i : Nat} : Code.byIndex i = none ↔ 3 < i := by
  rcases i with _ | _ | _ | _ | i <;> simp [Code.byIndex]

/-- `byLength` finds exactly the code of that length (40_codetable.md R103). -/
theorem Code.byLength_eq_some {m : Nat} {c : Code} : Code.byLength m = some c ↔ m = c.n := by
  refine ⟨fun h => ?_, fun h => h ▸ Code.byLength_n c⟩
  unfold Code.byLength at h
  split at h <;> simp_all <;> subst h <;> rfl

/-- `byLength` fails exactly on every other length (40_codetable.md R103, R113). -/
theorem Code.byLength_eq_none {m : Nat} :
    Code.byLength m = none ↔ m ≠ 3 ∧ m ≠ 7 ∧ m ≠ 15 ∧ m ≠ 31 := by
  unfold Code.byLength
  split <;> simp_all

/-! ### Validity, condition by condition -/

theorem CodeTable.validAt_of_valid {t : CodeTable} (h : t.valid = true) (c : Code) :
    t.validAt c = true :=
  List.all_eq_true.mp h c (Code.mem_all c)

/-- Condition (b): the last `k` columns of `G` are the identity. -/
theorem CodeTable.gen_systematic {t : CodeTable} (h : t.valid = true) {c : Code} {i j : Nat}
    (hi : i < c.k) (hj : j < c.k) : (t.gen c).at i (c.r + j) = decide (i = j) := by
  have hv := CodeTable.validAt_of_valid h c
  simp only [CodeTable.validAt, Bool.and_eq_true, CodeTable.systematic, List.all_eq_true,
    List.mem_range, beq_iff_eq] at hv
  rw [hv.1.1.2 i hi j hj]
  rfl

/-- Condition (c): the columns of `H` are pairwise different. -/
theorem CodeTable.col_injective {t : CodeTable} (h : t.valid = true) {c : Code} {p q : Nat}
    (hp : p < c.n) (hq : q < c.n) (he : (t.par c).col c.r p = (t.par c).col c.r q) : p = q := by
  have hv := CodeTable.validAt_of_valid h c
  simp only [CodeTable.validAt, Bool.and_eq_true, CodeTable.columnsOk, decide_eq_true_eq] at hv
  have hn : (t.parCols c).Nodup := hv.1.2.1
  have hl : (t.parCols c).length = c.n := by simp [CodeTable.parCols]
  refine (hn.getElem_inj_iff (hi := hl ▸ hp) (hj := hl ▸ hq)).mp ?_
  simpa [CodeTable.parCols] using he

/-- Condition (c): no column of `H` is all zero. -/
theorem CodeTable.col_ne_zeros {t : CodeTable} (h : t.valid = true) {c : Code} {p : Nat}
    (hp : p < c.n) : (t.par c).col c.r p ≠ zeros c.r := by
  have hv := CodeTable.validAt_of_valid h c
  simp only [CodeTable.validAt, Bool.and_eq_true, CodeTable.columnsOk, Bool.not_eq_true',
    List.contains_eq_mem, decide_eq_false_iff_not] at hv
  intro he
  exact hv.1.2.2 (List.mem_map.mpr ⟨p, List.mem_range.mpr hp, he⟩)

/-- Condition (d): `G · Hᵗ = 0`. -/
theorem CodeTable.gen_mul_par {t : CodeTable} (h : t.valid = true) {c : Code} {i a : Nat}
    (hi : i < c.k) (ha : a < c.r) :
    xorSum ((List.range c.n).map fun j => (t.gen c).at i j && (t.par c).at a j) = false := by
  have hv := CodeTable.validAt_of_valid h c
  simp only [CodeTable.validAt, Bool.and_eq_true, CodeTable.orthogonal, List.all_eq_true,
    List.mem_range, Bool.not_eq_true'] at hv
  exact hv.2 i hi a ha

/-- Every nonzero sequence of `r` bits is a column of `H` (40_codetable.md R105): the `n` columns are
`n` different ones of the `2 ^ r - 1 = n` such sequences. -/
theorem CodeTable.exists_col {t : CodeTable} (h : t.valid = true) {c : Code} {s : Bits}
    (hs : s.length = c.r) (hz : s ≠ zeros c.r) : ∃ p, p < c.n ∧ (t.par c).col c.r p = s := by
  let f : Fin c.n → {x : Fin c.r → Bit // x ≠ fun _ => false} := fun p =>
    ⟨fun a => bitAt ((t.par c).col c.r p) a, fun he => CodeTable.col_ne_zeros h p.2
      ((eq_zeros_iff (by simp)).mpr fun i hi => congrFun he ⟨i, hi⟩)⟩
  have hinj : Function.Injective f := fun p q hpq => by
    refine Fin.ext (CodeTable.col_injective h p.2 q.2 (bits_ext (by simp) fun i hi => ?_))
    exact congrFun (congrArg Subtype.val hpq) ⟨i, by simpa using hi⟩
  have hcard : Fintype.card {x : Fin c.r → Bit // x ≠ fun _ => false} = Fintype.card (Fin c.n) := by
    rw [Fintype.card_subtype_compl]
    have := c.n_add_one
    simp; omega
  obtain ⟨p, hp⟩ := ((Fintype.bijective_iff_injective_and_card f).mpr ⟨hinj, hcard.symm⟩).2
    ⟨fun a => bitAt s a, fun he => hz ((eq_zeros_iff hs).mpr fun i hi => congrFun he ⟨i, hi⟩)⟩
  refine ⟨p, p.2, bits_ext (by simp [hs]) fun i hi => ?_⟩
  exact congrFun (congrArg Subtype.val hp) ⟨i, by simpa using hi⟩

end Sys2Proof.Machine
end

