-- ==== Sys2Proof/Laws/Codec.lean ====
section
/-! SUPPORT. One codeword: the block encoder and the block decoder under a valid table
(40_codetable.md R105, R106, 41_encoder.md R122, 44_decoder.md R161 to R168). -/

namespace Sys2Proof.Machine

theorem bitAt_xorBits {a b : Bits} (h : a.length = b.length) (i : Nat) :
    bitAt (xorBits a b) i = (bitAt a i ^^ bitAt b i) := by
  by_cases hi : i < a.length
  · rw [bitAt_eq_getElem (by simp [xorBits, ← h, hi]), bitAt_eq_getElem hi,
      bitAt_eq_getElem (h ▸ hi)]
    simp [xorBits]
  · rw [bitAt_of_length_le (by simp [xorBits, ← h]; omega), bitAt_of_length_le (by omega),
      bitAt_of_length_le (by omega)]
    rfl

@[simp] theorem xorBits_length (a b : Bits) : (xorBits a b).length = min a.length b.length := by
  simp [xorBits]

/-! ### The block encoder -/

@[simp] theorem Encoder.encBlock_length (t : CodeTable) (c : Code) (d : Bits) :
    (Encoder.encBlock t c d).length = c.n := by
  simp [Encoder.encBlock]

/-- The data bits stand in the last `k` positions (30_encoding.md R76). -/
theorem Encoder.bitAt_encBlock_data {t : CodeTable} (h : t.valid = true) {c : Code} (d : Bits)
    {j : Nat} (hj : j < c.k) : bitAt (Encoder.encBlock t c d) (c.r + j) = bitAt d j := by
  rw [Encoder.encBlock, bitAt_vecMul d _ (by have := c.r_add_k; omega)]
  rw [xorSum_map_congr (g := fun i => decide (i = j) && bitAt d i), xorSum_single hj]
  intro i hi
  rw [CodeTable.gen_systematic h (List.mem_range.mp hi) hj, Bool.and_comm]

@[simp] theorem Decoder.extract_length {c : Code} {b : Bits} (hb : b.length = c.n) :
    (Decoder.extract c b).length = c.k := by
  have := c.r_add_k
  rw [Decoder.extract, slice_length]; omega

theorem Decoder.bitAt_extract {c : Code} (b : Bits) {j : Nat} (hj : j < c.k) :
    bitAt (Decoder.extract c b) j = bitAt b (c.r + j) := by
  have := c.r_add_k
  rw [Decoder.extract, bitAt_slice, if_pos (by omega)]

/-- Extraction undoes the block encoder. -/
theorem Decoder.extract_encBlock {t : CodeTable} (h : t.valid = true) {c : Code} {d : Bits}
    (hd : d.length = c.k) : Decoder.extract c (Encoder.encBlock t c d) = d := by
  refine bits_ext (by simp [hd]) fun j hj => ?_
  rw [Decoder.extract_length (by simp)] at hj
  rw [Decoder.bitAt_extract _ hj, Encoder.bitAt_encBlock_data h d hj]

theorem Encoder.encBlock_xorBits (t : CodeTable) (c : Code) {a b : Bits} (h : a.length = b.length) :
    Encoder.encBlock t c (xorBits a b) =
      xorBits (Encoder.encBlock t c a) (Encoder.encBlock t c b) := by
  refine bits_ext (by simp) fun j hj => ?_
  rw [Encoder.encBlock_length] at hj
  rw [bitAt_xorBits (by simp)]
  simp only [Encoder.encBlock, bitAt_vecMul _ _ hj, bitAt_xorBits h, Bool.and_xor_distrib_right,
    xorSum_map_xor]

/-! ### The syndrome -/

@[simp] theorem Decoder.syndrome_length (t : CodeTable) (c : Code) (b : Bits) :
    (Decoder.syndrome t c b).length = c.r := by
  simp [Decoder.syndrome]

/-- The syndrome is linear (44_decoder.md R161). -/
theorem Decoder.syndrome_xorBits (t : CodeTable) (c : Code) {a b : Bits} (h : a.length = b.length) :
    Decoder.syndrome t c (xorBits a b) =
      xorBits (Decoder.syndrome t c a) (Decoder.syndrome t c b) := by
  refine bits_ext (by simp) fun i hi => ?_
  rw [Decoder.syndrome_length] at hi
  rw [bitAt_xorBits (by simp)]
  simp only [Decoder.syndrome, bitAt_mulVec _ _ hi, bitAt_xorBits h, Bool.and_xor_distrib_left,
    xorSum_map_xor]

/-- A codeword has the all-zero syndrome. -/
theorem Decoder.syndrome_encBlock {t : CodeTable} (h : t.valid = true) (c : Code) (d : Bits) :
    Decoder.syndrome t c (Encoder.encBlock t c d) = zeros c.r := by
  refine (eq_zeros_iff (by simp)).mpr fun a ha => ?_
  rw [Decoder.syndrome, bitAt_mulVec _ _ ha]
  rw [xorSum_map_congr (g := fun j => xorSum ((List.range c.k).map fun i =>
    bitAt d i && ((t.gen c).at i j && (t.par c).at a j)))]
  · rw [xorSum_comm]
    rw [xorSum_map_congr (g := fun _ => false), xorSum_map_false]
    intro i hi
    rw [xorSum_map_and, CodeTable.gen_mul_par h (List.mem_range.mp hi) ha, Bool.and_false]
  · intro j hj
    rw [Encoder.encBlock, bitAt_vecMul d _ (List.mem_range.mp hj), ← xorSum_map_and]
    refine xorSum_map_congr fun i _ => ?_
    cases bitAt d i <;> cases (t.gen c).at i j <;> cases (t.par c).at a j <;> rfl

/-- Flipping bit `p` adds column `p` to the syndrome. -/
theorem Decoder.syndrome_flipBit (t : CodeTable) {c : Code} {b : Bits} (hb : b.length = c.n) {p : Nat}
    (hp : p < c.n) :
    Decoder.syndrome t c (flipBit b p) =
      xorBits (Decoder.syndrome t c b) ((t.par c).col c.r p) := by
  refine bits_ext (by simp) fun a ha => ?_
  rw [Decoder.syndrome_length] at ha
  rw [bitAt_xorBits (by simp), Matrix.bitAt_col _ _ ha]
  simp only [Decoder.syndrome, bitAt_mulVec _ _ ha, bitAt_flipBit (hb ▸ hp),
    Bool.and_xor_distrib_left, xorSum_map_xor]
  congr 1
  simp only [Bool.and_comm ((t.par c).at a _)]
  exact xorSum_single hp _

/-- A sum mod 2 over the `r` check positions, of the bits of `x` that the columns select. -/
theorem Decoder.checkPart_eq_zero {t : CodeTable} (h : t.valid = true) {c : Code} (x : Nat → Bit)
    (hx : ∀ a, a < c.r → xorSum ((List.range c.r).map fun j => (t.par c).at a j && x j) = false) :
    ∀ j, j < c.r → x j = false := by
  let φ : (Fin c.r → Bit) → (Fin c.r → Bit) := fun y a =>
    xorSum ((List.range c.r).map fun j => (t.par c).at a j && if hj : j < c.r then y ⟨j, hj⟩ else false)
  have hφ : ∀ (y : Nat → Bit) (a : Fin c.r), φ (fun j => y j) a =
      xorSum ((List.range c.r).map fun j => (t.par c).at a j && y j) := fun y a =>
    xorSum_map_congr fun j hj => by simp [List.mem_range.mp hj]
  have hsurj : Function.Surjective φ := by
    intro y
    let s : Bits := (List.range c.r).map fun i => if hi : i < c.r then y ⟨i, hi⟩ else false
    have hs : s.length = c.r := by simp [s]
    have hy : ∀ a : Fin c.r, bitAt s a = y a := fun a => by simp [s, bitAt_range_map]
    by_cases hz : s = zeros c.r
    · refine ⟨fun _ => false, funext fun a => ?_⟩
      rw [hφ (fun _ => false), ← hy, hz, bitAt_zeros]
      simpa using xorSum_map_false (List.range c.r)
    · obtain ⟨p, hp, hcol⟩ := CodeTable.exists_col h hs hz
      by_cases hpr : p < c.r
      · refine ⟨fun j => decide (j.1 = p), funext fun a => ?_⟩
        rw [hφ (fun j => decide (j = p)), ← hy, ← hcol, Matrix.bitAt_col _ _ a.2]
        simp only [Bool.and_comm ((t.par c).at a _)]
        exact xorSum_single hpr _
      · obtain ⟨i, rfl⟩ := Nat.exists_eq_add_of_le (Nat.le_of_not_lt hpr)
        have hi : i < c.k := by have := c.r_add_k; omega
        refine ⟨fun j => (t.gen c).at i j, funext fun a => ?_⟩
        rw [hφ (fun j => (t.gen c).at i j), ← hy, ← hcol, Matrix.bitAt_col _ _ a.2]
        have ho := CodeTable.gen_mul_par h hi a.2
        rw [← c.r_add_k, xorSum_range_add] at ho
        rw [xorSum_map_congr (l := List.range c.k)
          (g := fun m => decide (m = i) && (t.par c).at a (c.r + m)), xorSum_single hi] at ho
        · simp only [Bool.and_comm ((t.par c).at a _)]
          simpa using ho
        · intro m hm
          rw [CodeTable.gen_systematic h hi (List.mem_range.mp hm)]
          simp [eq_comm]
  have hinj : Function.Injective φ := Finite.injective_iff_surjective.mpr hsurj
  have he : φ (fun j : Fin c.r => x j) = φ (fun _ : Fin c.r => false) := funext fun a => by
    rw [hφ x a, hx a a.2, hφ (fun _ => false)]
    simpa using (xorSum_map_false (List.range c.r)).symm
  intro j hj
  have hx0 : (fun j : Fin c.r => x j) = fun _ => false := hinj he
  exact congrFun hx0 ⟨j, hj⟩

/-- A block with the all-zero syndrome is the codeword of its data bits (40_codetable.md R106). -/
theorem Decoder.eq_encBlock_of_syndrome {t : CodeTable} (h : t.valid = true) {c : Code} {b : Bits}
    (hb : b.length = c.n) (hs : Decoder.syndrome t c b = zeros c.r) :
    b = Encoder.encBlock t c (Decoder.extract c b) := by
  have hdata : ∀ j, j < c.k →
      bitAt b (c.r + j) = bitAt (Encoder.encBlock t c (Decoder.extract c b)) (c.r + j) := fun j hj => by
    rw [Encoder.bitAt_encBlock_data h _ hj, Decoder.bitAt_extract _ hj]
  have hcheck := Decoder.checkPart_eq_zero h (c := c)
    (fun j => bitAt b j ^^ bitAt (Encoder.encBlock t c (Decoder.extract c b)) j) fun a ha => by
      have hsum : bitAt (Decoder.syndrome t c (xorBits b
          (Encoder.encBlock t c (Decoder.extract c b)))) a = false := by
        rw [Decoder.syndrome_xorBits t c (by simp [hb]), hs, Decoder.syndrome_encBlock h,
          bitAt_xorBits rfl]
        simp
      rw [Decoder.syndrome, bitAt_mulVec _ _ ha, ← c.r_add_k, xorSum_range_add] at hsum
      simp only [bitAt_xorBits (show b.length = (Encoder.encBlock t c _).length by simp [hb])] at hsum
      rw [xorSum_map_congr (l := List.range c.k) (g := fun _ => false), xorSum_map_false,
        Bool.xor_false] at hsum
      · exact hsum
      · intro j hj
        rw [hdata j (List.mem_range.mp hj)]; simp
  refine bits_ext (by simp [hb]) fun i hi => ?_
  by_cases hr : i < c.r
  · simpa using hcheck i hr
  · obtain ⟨j, rfl⟩ := Nat.exists_eq_add_of_le (Nat.le_of_not_lt hr)
    exact hdata j (by have := c.r_add_k; omega)

/-! ### The lookup -/

/-- The lookup finds the position of a column (44_decoder.md R164). -/
theorem Decoder.locate_col {t : CodeTable} (h : t.valid = true) {c : Code} {p : Nat} (hp : p < c.n) :
    Decoder.locate t c ((t.par c).col c.r p) = some p := by
  unfold Decoder.locate
  rw [List.find?_eq_some_iff_append]
  refine ⟨by simp, List.range p, (List.range (c.n - p - 1)).map (· + (p + 1)), ?_, ?_⟩
  · refine List.ext_getElem (by simp; omega) fun i h₁ h₂ => ?_
    simp only [List.length_range] at h₁
    rw [List.getElem_append]
    split
    · simp
    · rename_i hi
      simp only [List.length_range] at hi
      rw [List.getElem_range]
      rcases Nat.eq_or_lt_of_le (Nat.le_of_not_lt hi) with rfl | hlt
      · simp
      · rw [List.getElem_cons]
        split
        · simp_all; omega
        · simp; omega
  · intro q hq
    have hq := List.mem_range.mp hq
    simp only [Bool.not_eq_true', beq_eq_false_iff_ne, ne_eq]
    exact fun he => absurd (CodeTable.col_injective h (by omega) hp he) (by omega)

/-- Under a valid table the lookup never fails on a nonzero syndrome (44_decoder.md R170). -/
theorem Decoder.exists_locate {t : CodeTable} (h : t.valid = true) {c : Code} {s : Bits}
    (hs : s.length = c.r) (hz : s ≠ zeros c.r) :
    ∃ p, p < c.n ∧ Decoder.locate t c s = some p ∧ (t.par c).col c.r p = s := by
  obtain ⟨p, hp, rfl⟩ := CodeTable.exists_col h hs hz
  exact ⟨p, hp, Decoder.locate_col h hp, rfl⟩

/-! ### The block decoder -/

theorem xorBits_self {s : Bits} {m : Nat} (h : s.length = m) : xorBits s s = zeros m :=
  (eq_zeros_iff (by simp [h])).mpr fun i _ => by simp [bitAt_xorBits rfl]

/-- Everything the block decoder does under a valid table: it never fails, and the data it returns are
those of a codeword that is the block or the block with one bit flipped. -/
theorem Decoder.decBlock_nearest {t : CodeTable} (h : t.valid = true) {c : Code} {b : Bits}
    (hb : b.length = c.n) :
    ∃ d, Decoder.decBlock t c b = .ok d ∧ d.length = c.k ∧
      (Encoder.encBlock t c d = b ∨ ∃ p, p < c.n ∧ Encoder.encBlock t c d = flipBit b p) := by
  by_cases hz : Decoder.syndrome t c b = zeros c.r
  · refine ⟨Decoder.extract c b, by simp [Decoder.decBlock, hz], by simp [hb], .inl ?_⟩
    exact (Decoder.eq_encBlock_of_syndrome h hb hz).symm
  · obtain ⟨p, hp, hl, hc⟩ := Decoder.exists_locate h (Decoder.syndrome_length t c b) hz
    refine ⟨Decoder.extract c (flipBit b p), by simp [Decoder.decBlock, hz, hl], by simp [hb],
      .inr ⟨p, hp, ?_⟩⟩
    refine (Decoder.eq_encBlock_of_syndrome h (by simp [hb]) ?_).symm
    rw [Decoder.syndrome_flipBit t hb hp, hc, xorBits_self (m := c.r) (by simp)]

/-- A clean codeword decodes to its data. -/
theorem Decoder.decBlock_encBlock {t : CodeTable} (h : t.valid = true) {c : Code} {d : Bits}
    (hd : d.length = c.k) : Decoder.decBlock t c (Encoder.encBlock t c d) = .ok d := by
  simp [Decoder.decBlock, Decoder.syndrome_encBlock h, Decoder.extract_encBlock h hd]

theorem flipBit_flipBit {s : Bits} {p : Nat} (hp : p < s.length) : flipBit (flipBit s p) p = s := by
  refine bits_ext (by simp) fun i _ => ?_
  rw [bitAt_flipBit (by simpa using hp), bitAt_flipBit hp]; simp

/-- A codeword with one bit flipped decodes to its data. -/
theorem Decoder.decBlock_flipBit {t : CodeTable} (h : t.valid = true) {c : Code} {d : Bits}
    (hd : d.length = c.k) {p : Nat} (hp : p < c.n) :
    Decoder.decBlock t c (flipBit (Encoder.encBlock t c d) p) = .ok d := by
  have hs : Decoder.syndrome t c (flipBit (Encoder.encBlock t c d) p) = (t.par c).col c.r p := by
    rw [Decoder.syndrome_flipBit t (by simp) hp, Decoder.syndrome_encBlock h]
    exact bits_ext (by simp) fun i _ => by rw [bitAt_xorBits (by simp)]; simp
  simp [Decoder.decBlock, hs, CodeTable.col_ne_zeros h hp, Decoder.locate_col h hp,
    flipBit_flipBit, hp, Decoder.extract_encBlock h hd]

end Sys2Proof.Machine
end

