-- ==== Sys2Proof/Laws/Sequence.lean ====
section
/-! SUPPORT. Whole sequences: padding, the encoder and the decoder over all blocks, and a channel that
flips at most one bit per block (41_encoder.md R121 to R125, 44_decoder.md R169, R174). -/

namespace Sys2Proof.Machine

open Sys2Proof.Claim

/-! ### Padding and encoding -/

theorem Encoder.length_add_padding (c : Code) (len : Nat) :
    len + Encoder.padding c len = c.k * ceilDiv len c.k := by
  cases c <;> simp only [Encoder.padding, Code.k, ceilDiv] <;> omega

/-- `|pad(c, d)| = k · ceil(|d| / k)` (41_encoder.md R121). -/
theorem Encoder.pad_length (c : Code) (d : Bits) :
    (Encoder.pad c d).length = c.k * ceilDiv d.length c.k := by
  rw [Encoder.pad, List.length_append, zeros_length, Encoder.length_add_padding]

theorem Encoder.pad_eq_self {c : Code} {d : Bits} {m : Nat} (h : d.length = c.k * m) :
    Encoder.pad c d = d := by
  have : Encoder.padding c d.length = 0 := by
    rw [h]; cases c <;> simp [Encoder.padding, Code.k, Nat.mod_one]
  simp [Encoder.pad, this, zeros]

theorem ceilDiv_mul {k : Nat} (hk : 0 < k) (m : Nat) : ceilDiv (k * m) k = m := by
  rw [ceilDiv, Nat.add_sub_assoc hk, Nat.mul_add_div hk, Nat.div_eq_of_lt (by omega), Nat.add_zero]

/-- A padded bit is a data bit or 0. -/
theorem Encoder.bitAt_pad (c : Code) (d : Bits) (i : Nat) :
    bitAt (Encoder.pad c d) i = bitAt d i := by
  rw [Encoder.pad, bitAt_append]
  split
  · rfl
  · rw [bitAt_zeros, bitAt_of_length_le (by omega)]

/-- The data blocks of the padded data. -/
theorem Encoder.blocks_pad_length (c : Code) (d : Bits) :
    (blocks c.k (Encoder.pad c d)).length = ceilDiv d.length c.k := by
  rw [blocks_length, Encoder.pad_length, Nat.mul_div_cancel_left _ c.k_pos]

theorem Encoder.encode_eq_flatten (t : CodeTable) (c : Code) (d : Bits) :
    Encoder.encode t c d = ((blocks c.k (Encoder.pad c d)).map (Encoder.encBlock t c)).flatten := by
  rw [Encoder.encode, List.flatMap_def]

theorem Encoder.mem_map_encBlock_length {t : CodeTable} {c : Code} {l : List Bits} :
    ∀ b, b ∈ l.map (Encoder.encBlock t c) → b.length = c.n := by
  intro b hb
  obtain ⟨x, -, rfl⟩ := List.mem_map.mp hb
  simp

/-- `|encode(c, d)| = n · ceil(|d| / k)` (41_encoder.md R125). -/
theorem Encoder.encode_length (t : CodeTable) (c : Code) (d : Bits) :
    (Encoder.encode t c d).length = c.n * ceilDiv d.length c.k := by
  rw [Encoder.encode_eq_flatten, flatten_length_of_forall _ Encoder.mem_map_encBlock_length,
    List.length_map, Encoder.blocks_pad_length, Nat.mul_comm]

/-- The codewords of the result are the encoded data blocks. -/
theorem Encoder.blocks_encode (t : CodeTable) (c : Code) (d : Bits) :
    blocks c.n (Encoder.encode t c d) = (blocks c.k (Encoder.pad c d)).map (Encoder.encBlock t c) := by
  rw [Encoder.encode_eq_flatten, blocks_flatten c.n_pos _ Encoder.mem_map_encBlock_length]

/-- Codeword `b` of the result. -/
theorem Encoder.slice_encode (t : CodeTable) (c : Code) (d : Bits) {b : Nat}
    (hb : b < ceilDiv d.length c.k) :
    slice (Encoder.encode t c d) (b * c.n) ((b + 1) * c.n) =
      Encoder.encBlock t c (slice (Encoder.pad c d) (b * c.k) ((b + 1) * c.k)) := by
  have hl : b < (blocks c.n (Encoder.encode t c d)).length := by
    rw [Encoder.blocks_encode, List.length_map, Encoder.blocks_pad_length]; exact hb
  rw [← getElem_blocks hl]
  simp only [Encoder.blocks_encode, List.getElem_map, getElem_blocks]

/-- Bit `j` of codeword `b` of the result. -/
theorem Encoder.bitAt_encode (t : CodeTable) (c : Code) (d : Bits) {b j : Nat}
    (hb : b < ceilDiv d.length c.k) (hj : j < c.n) :
    bitAt (Encoder.encode t c d) (b * c.n + j) =
      bitAt (Encoder.encBlock t c (slice (Encoder.pad c d) (b * c.k) ((b + 1) * c.k))) j := by
  rw [← Encoder.slice_encode t c d hb, bitAt_slice, if_pos]
  rw [Nat.succ_mul]; omega

/-! ### Decoding all blocks -/

/-- Blocks that each decode, decode in order (44_decoder.md R169). -/
theorem Decoder.decBlocks_of_forall₂ {t : CodeTable} {c : Code} {bs ds : List Bits}
    (h : List.Forall₂ (fun b d => Decoder.decBlock t c b = .ok d) bs ds) :
    Decoder.decBlocks t c bs = .ok ds.flatten := by
  induction h with
  | nil => rfl
  | cons hb _ ih => simp [Decoder.decBlocks, hb, ih, bind, Except.bind, pure, Except.pure]

theorem Decoder.decode_of_mod_ne {t : CodeTable} {c : Code} {e : Bits} (h : e.length % c.n ≠ 0) :
    Decoder.decode t c e = .error .frameTruncated := if_pos h

theorem Decoder.decode_of_mod_eq {t : CodeTable} {c : Code} {e : Bits} (h : e.length % c.n = 0) :
    Decoder.decode t c e = Decoder.decBlocks t c (blocks c.n e) := if_neg (not_not.mpr h)

/-- The data of a decoded block are `k` bits, under every table. -/
theorem Decoder.decBlock_length {t : CodeTable} {c : Code} {b d : Bits} (hb : b.length = c.n)
    (h : Decoder.decBlock t c b = .ok d) : d.length = c.k := by
  simp only [Decoder.decBlock] at h
  split at h
  · cases h; exact Decoder.extract_length hb
  · split at h
    · cases h
    · cases h; exact Decoder.extract_length (by simpa using hb)

theorem Decoder.decBlocks_length {t : CodeTable} {c : Code} {bs : List Bits} {d : Bits}
    (hb : ∀ b, b ∈ bs → b.length = c.n) (h : Decoder.decBlocks t c bs = .ok d) :
    d.length = c.k * bs.length := by
  induction bs generalizing d with
  | nil => cases h; simp
  | cons b bs ih =>
    simp only [Decoder.decBlocks] at h
    cases h₁ : Decoder.decBlock t c b with
    | error f => simp [h₁, bind, Except.bind] at h
    | ok d₁ =>
      cases h₂ : Decoder.decBlocks t c bs with
      | error f => simp [h₁, h₂, bind, Except.bind] at h
      | ok d₂ =>
        simp only [h₁, h₂, bind, Except.bind, pure, Except.pure, Except.ok.injEq] at h
        rw [← h, List.length_append, Decoder.decBlock_length (hb b (by simp)) h₁,
          ih (fun b hm => hb b (by simp [hm])) h₂, List.length_cons]
        ring

/-- `k · |e| / n` bits come out, under every table (44_decoder.md R171). -/
theorem Decoder.decode_length {t : CodeTable} {c : Code} {e d : Bits}
    (h : Decoder.decode t c e = .ok d) : d.length = c.k * (e.length / c.n) := by
  unfold Decoder.decode at h
  split at h
  · cases h
  · rw [Decoder.decBlocks_length (fun b hb => mem_blocks_length hb) h, blocks_length]

/-- The only faults of the block decoder. -/
theorem Decoder.decBlock_error {t : CodeTable} {c : Code} {b : Bits} {f : RaisedFault}
    (h : Decoder.decBlock t c b = .error f) : f = .uncorrectableBlock := by
  simp only [Decoder.decBlock] at h
  split at h
  · cases h
  · split at h <;> cases h; rfl

theorem Decoder.decBlocks_error {t : CodeTable} {c : Code} {bs : List Bits} {f : RaisedFault}
    (h : Decoder.decBlocks t c bs = .error f) : f = .uncorrectableBlock := by
  induction bs with
  | nil => cases h
  | cons b bs ih =>
    simp only [Decoder.decBlocks] at h
    cases h₁ : Decoder.decBlock t c b with
    | error g =>
      simp only [h₁, bind, Except.bind, Except.error.injEq] at h
      exact h ▸ Decoder.decBlock_error h₁
    | ok d =>
      cases h₂ : Decoder.decBlocks t c bs with
      | error g =>
        simp only [h₁, h₂, bind, Except.bind, Except.error.injEq] at h
        exact ih (h ▸ h₂)
      | ok d₂ => simp [h₁, h₂, bind, Except.bind, pure, Except.pure] at h

/-- When decoding fails, the tiling was wrong or a block was uncorrectable (44_decoder.md R172). -/
theorem Decoder.decode_error {t : CodeTable} {c : Code} {e : Bits} {f : RaisedFault}
    (h : Decoder.decode t c e = .error f) :
    (f = .frameTruncated ∧ e.length % c.n ≠ 0) ∨ (f = .uncorrectableBlock ∧ e.length % c.n = 0) := by
  unfold Decoder.decode at h
  split at h
  · rename_i hm; cases h; exact .inl ⟨rfl, hm⟩
  · rename_i hm; exact .inr ⟨Decoder.decBlocks_error h, not_not.mp hm⟩

/-- Under a valid table every input that tiles decodes (44_decoder.md R170). -/
theorem Decoder.exists_decBlocks {t : CodeTable} (h : t.valid = true) {c : Code} {bs : List Bits}
    (hb : ∀ b, b ∈ bs → b.length = c.n) :
    ∃ ds, List.Forall₂ (fun b d => Decoder.decBlock t c b = .ok d) bs ds := by
  induction bs with
  | nil => exact ⟨[], .nil⟩
  | cons b bs ih =>
    obtain ⟨d, hd, -⟩ := Decoder.decBlock_nearest h (hb b (by simp))
    obtain ⟨ds, hds⟩ := ih fun b hm => hb b (by simp [hm])
    exact ⟨d :: ds, .cons hd hds⟩

theorem Decoder.exists_decode {t : CodeTable} (h : t.valid = true) {c : Code} {e : Bits}
    (he : e.length % c.n = 0) : ∃ d, Decoder.decode t c e = .ok d := by
  obtain ⟨ds, hds⟩ := Decoder.exists_decBlocks h (c := c) (bs := blocks c.n e)
    fun b hb => mem_blocks_length hb
  exact ⟨ds.flatten, by rw [Decoder.decode_of_mod_eq he, Decoder.decBlocks_of_forall₂ hds]⟩

/-! ### At most one flip per block -/

theorem differences_slice (x y : Bits) (a w : Nat) :
    differences x y a w = differences (slice x a (a + w)) (slice y a (a + w)) 0 w := by
  unfold differences
  congr 1
  refine Finset.filter_congr fun i hi => ?_
  have hi := Finset.mem_range.mp hi
  rw [Nat.zero_add, bitAt_slice, bitAt_slice, if_pos (by omega), if_pos (by omega)]

theorem differences_comm (x y : Bits) (a w : Nat) : differences x y a w = differences y x a w := by
  unfold differences
  congr 1
  exact Finset.filter_congr fun i _ => ne_comm

theorem differences_self (x : Bits) (a w : Nat) : differences x x a w = 0 := by
  simp [differences]

theorem differences_flipBit {x : Bits} {p : Nat} (hp : p < x.length) (w : Nat) :
    differences x (flipBit x p) 0 w ≤ 1 := by
  unfold differences
  refine le_trans (Finset.card_le_card (t := {p}) fun i hi => ?_) (by simp)
  simp only [Finset.mem_filter, Nat.zero_add, bitAt_flipBit hp] at hi
  by_contra hne
  exact hi.2 (by simp [Finset.mem_singleton.not.mp hne])

/-- Two blocks that differ in at most one position are equal or one bit flip apart. -/
theorem eq_or_flipBit_of_differences {x y : Bits} {w : Nat} (hx : x.length = w) (hy : y.length = w)
    (h : differences x y 0 w ≤ 1) : y = x ∨ ∃ p, p < w ∧ y = flipBit x p := by
  unfold differences at h
  rcases Nat.le_one_iff_eq_zero_or_eq_one.mp h with h | h
  · refine .inl (bits_ext (by omega) fun i hi => ?_)
    by_contra hne
    have := Finset.card_eq_zero.mp h
    have hm : i ∈ (Finset.range w).filter fun i => bitAt x (0 + i) ≠ bitAt y (0 + i) := by
      simp only [Finset.mem_filter, Finset.mem_range, Nat.zero_add]
      exact ⟨by omega, fun he => hne he.symm⟩
    rw [this] at hm; cases hm
  · obtain ⟨p, hp⟩ := Finset.card_eq_one.mp h
    have hmem : ∀ i, i < w → (bitAt x i ≠ bitAt y i ↔ i = p) := fun i hi => by
      rw [← Finset.mem_singleton, ← hp]
      simp [hi]
    have hpw : p < w := by
      have : p ∈ ({p} : Finset Nat) := by simp
      rw [← hp] at this
      simpa using (Finset.mem_filter.mp this).1
    refine .inr ⟨p, hpw, bits_ext (by simp; omega) fun i hi => ?_⟩
    rw [bitAt_flipBit (by omega)]
    have := hmem i (by omega)
    by_cases hip : i = p
    · have := this.mpr hip
      rw [decide_eq_true hip]
      revert this
      cases bitAt x i <;> cases bitAt y i <;> simp
    · have := mt this.mp hip
      simp only [ne_eq, not_not] at this
      rw [decide_eq_false hip, this]; simp

/-- Encoded data with at most one flip in each codeword decode to the padded data
(44_decoder.md R174). -/
theorem Decoder.decode_of_oneFlipPer {t : CodeTable} (h : t.valid = true) {c : Code} {d e : Bits}
    (hl : e.length = c.n * ceilDiv d.length c.k)
    (hf : OneFlipPer (Encoder.encode t c d) e 0 c.n (ceilDiv d.length c.k)) :
    Decoder.decode t c e = .ok (Encoder.pad c d) := by
  rw [Decoder.decode_of_mod_eq (by simp [hl])]
  have hbl : (blocks c.n e).length = ceilDiv d.length c.k := by
    rw [blocks_length, hl, Nat.mul_div_cancel_left _ c.n_pos]
  rw [← flatten_blocks c.k_pos (Encoder.pad c d) ⟨_, Encoder.pad_length c d⟩]
  refine Decoder.decBlocks_of_forall₂ (List.forall₂_iff_get.mpr
    ⟨by rw [hbl, Encoder.blocks_pad_length], fun b h₁ h₂ => ?_⟩)
  have hb : b < ceilDiv d.length c.k := hbl ▸ h₁
  have hd : ((blocks c.k (Encoder.pad c d))[b]).length = c.k :=
    mem_blocks_length (List.getElem_mem h₂)
  have he : ((blocks c.n e)[b]).length = c.n := mem_blocks_length (List.getElem_mem h₁)
  have hdiff := hf b hb
  rw [differences_slice, Nat.zero_add, ← Nat.succ_mul, Encoder.slice_encode t c d hb,
    ← getElem_blocks h₁, ← getElem_blocks h₂] at hdiff
  simp only [List.get_eq_getElem]
  obtain heq | ⟨p, hp, heq⟩ := eq_or_flipBit_of_differences (by simp) he hdiff
  · rw [heq]; exact Decoder.decBlock_encBlock h hd
  · rw [heq]; exact Decoder.decBlock_flipBit h hd hp

end Sys2Proof.Machine
end

