-- ==== Sys2Proof/Laws/Header.lean ====
section
/-! SUPPORT. Code 0 under a valid table: the generator matrix is forced (40_codetable.md R107), the
encoder triples, the decoder takes the majority (44_decoder.md R173), and so what the header codec
does (42_header_codec.md R140, R141). -/

namespace Sys2Proof.Machine

open Sys2Proof.Claim

/-- `val` as the sum of 00_scope.md R12. -/
theorem val_eq_sum (t : Bits) :
    val t = (Finset.range t.length).sum fun i => (bitAt t i).toNat * 2 ^ (t.length - 1 - i) := by
  induction t with
  | nil => rfl
  | cons b t ih =>
    rw [val, List.length_cons, Finset.sum_range_succ', ih, Nat.add_comm]
    congr 1
    refine Finset.sum_congr rfl fun i _ => ?_
    rw [bitAt_cons_succ]
    congr 2
    omega

/-- The `m` low bits of a number, most significant first, read back as the number mod `2 ^ m`. -/
theorem val_lowBits (m v : Nat) :
    val ((List.range m).map fun i => v / 2 ^ (m - 1 - i) % 2 == 1) = v % 2 ^ m := by
  induction m generalizing v with
  | zero => simp [val, Nat.mod_one]
  | succ m ih =>
    rw [List.range_succ, List.map_append, val_append]
    have hhi : ((List.range m).map fun i => v / 2 ^ (m + 1 - 1 - i) % 2 == 1) =
        (List.range m).map fun i => v / 2 / 2 ^ (m - 1 - i) % 2 == 1 := by
      refine List.map_congr_left fun i hi => ?_
      have hi := List.mem_range.mp hi
      rw [Nat.div_div_eq_div_mul, ← Nat.pow_succ', show m + 1 - 1 - i = m - 1 - i + 1 by omega]
    have hlo : val (List.map (fun i => v / 2 ^ (m + 1 - 1 - i) % 2 == 1) [m]) = v % 2 := by
      rcases Nat.mod_two_eq_zero_or_one v with h | h <;> simp [val, h]
    rw [hhi, ih, hlo, List.length_map, List.length_singleton, pow_one, Nat.pow_succ', Nat.mod_mul]
    ring

/-- A number below 2^16 written by `u16` reads back (00_scope.md R12). -/
theorem val_u16 {v : Nat} (h : v ≤ 65535) : val (u16 v) = v := by
  have := val_lowBits 16 v
  rw [Nat.mod_eq_of_lt (by omega)] at this
  exact this

/-- Validity forces the generator matrix of code 0 (40_codetable.md R107). -/
theorem CodeTable.gen_repetition {t : CodeTable} (h : t.valid = true) {j : Nat} (hj : j < 3) :
    (t.gen .repetition3_1).at 0 j = true := by
  have h2 : (t.gen .repetition3_1).at 0 2 = true :=
    CodeTable.gen_systematic h (c := .repetition3_1) (i := 0) (j := 0) (by decide) (by decide)
  have ho : ∀ a, a < 2 → (((t.gen .repetition3_1).at 0 0 && (t.par .repetition3_1).at a 0) ^^
      (((t.gen .repetition3_1).at 0 1 && (t.par .repetition3_1).at a 1) ^^
        (t.par .repetition3_1).at a 2)) = false := fun a ha => by
    have := CodeTable.gen_mul_par h (c := .repetition3_1) (i := 0) (a := a) (by decide) ha
    simpa [Code.n, List.range_succ, xorSum, h2] using this
  have hne : ∀ p q, p < 3 → q < 3 → p ≠ q → ¬ ∀ a, a < 2 →
      (t.par .repetition3_1).at a p = (t.par .repetition3_1).at a q := fun p q hp hq hpq he => by
    refine hpq (CodeTable.col_injective h (c := .repetition3_1) hp hq (bits_ext (by simp) ?_))
    intro a ha
    rw [Matrix.col_length] at ha
    rw [Matrix.bitAt_col _ _ ha, Matrix.bitAt_col _ _ ha]
    exact he a ha
  have hnz : ¬ ∀ a, a < 2 → (t.par .repetition3_1).at a 2 = false := fun he => by
    refine CodeTable.col_ne_zeros h (c := .repetition3_1) (p := 2) (by decide)
      ((eq_zeros_iff (by simp)).mpr fun a ha => ?_)
    rw [Matrix.bitAt_col _ _ ha]; exact he a ha
  cases h0 : (t.gen .repetition3_1).at 0 0 <;> cases h1 : (t.gen .repetition3_1).at 0 1
  · exact absurd (fun a ha => by simpa [h0, h1] using ho a ha) hnz
  · refine absurd (fun a ha => ?_) (hne 1 2 (by decide) (by decide) (by decide))
    have := ho a ha
    rw [h0, h1] at this
    revert this
    cases (t.par .repetition3_1).at a 0 <;> cases (t.par .repetition3_1).at a 1 <;>
      cases (t.par .repetition3_1).at a 2 <;> simp
  · refine absurd (fun a ha => ?_) (hne 0 2 (by decide) (by decide) (by decide))
    have := ho a ha
    rw [h0, h1] at this
    revert this
    cases (t.par .repetition3_1).at a 0 <;> cases (t.par .repetition3_1).at a 1 <;>
      cases (t.par .repetition3_1).at a 2 <;> simp
  · rcases j with _ | _ | _ | j
    · exact h0
    · exact h1
    · exact h2
    · omega

/-- A data bit of code 0 is written three times. -/
theorem Encoder.encBlock_repetition {t : CodeTable} (h : t.valid = true) (d : Bits) :
    Encoder.encBlock t .repetition3_1 d = [bitAt d 0, bitAt d 0, bitAt d 0] := by
  refine bits_ext (by simp [Code.n]) fun j hj => ?_
  have hj : j < 3 := by simpa [Code.n] using hj
  rw [Encoder.encBlock, bitAt_vecMul (b := Code.repetition3_1.n) d _ hj]
  have hg := CodeTable.gen_repetition h hj
  rcases j with _ | _ | _ | j
  · simp [Code.k, xorSum, hg]
  · simp [Code.k, xorSum, hg]
  · simp [Code.k, xorSum, hg]
  · omega

/-- Bit `q` of the three that stand for data bit `i` under code 0 (30_encoding.md R80). -/
theorem Encoder.bitAt_encode_repetition {t : CodeTable} (h : t.valid = true) (d : Bits) {i q : Nat}
    (hi : i < d.length) (hq : q < 3) :
    bitAt (Encoder.encode t .repetition3_1 d) (3 * i + q) = bitAt d i := by
  have hc : i < ceilDiv d.length Code.repetition3_1.k := by simpa [ceilDiv, Code.k] using hi
  have := Encoder.bitAt_encode t .repetition3_1 d hc (j := q) hq
  rw [show i * Code.repetition3_1.n = 3 * i by simp [Code.n]; ring] at this
  rw [this, Encoder.encBlock_repetition h, bitAt_slice, if_pos (by simp [Code.k]), Encoder.bitAt_pad]
  rcases q with _ | _ | _ | q
  · simp [Code.k]
  · simp [Code.k]
  · simp [Code.k]
  · omega

theorem Encoder.encode_repetition_length (t : CodeTable) (d : Bits) :
    (Encoder.encode t .repetition3_1 d).length = 3 * d.length := by
  rw [Encoder.encode_length]; simp [ceilDiv, Code.n, Code.k]

/-- The codeword of code 0 that is a block, or the block with one bit flipped, is that of the
majority. -/
theorem repetition_nearest (b0 b1 b2 x : Bit) :
    ([x, x, x] = [b0, b1, b2] ∨ ∃ p, p < 3 ∧ [x, x, x] = flipBit [b0, b1, b2] p) →
      [x] = [majority b0 b1 b2] := by
  revert b0 b1 b2 x; decide

/-- The block decoder of code 0 takes the majority (44_decoder.md R173). -/
theorem Decoder.decBlock_repetition {t : CodeTable} (h : t.valid = true) {b : Bits}
    (hb : b.length = 3) :
    Decoder.decBlock t .repetition3_1 b = .ok [majority (bitAt b 0) (bitAt b 1) (bitAt b 2)] := by
  obtain ⟨d, hd, hl, he⟩ := Decoder.decBlock_nearest h (c := .repetition3_1) hb
  rw [hd]
  match d, hl with
  | [x], _ =>
  match b, hb with
  | [b0, b1, b2], _ =>
  rw [Encoder.encBlock_repetition h] at he
  exact congrArg _ (repetition_nearest b0 b1 b2 x he)

/-- Decoding under code 0: every data bit is the majority of its three bits. -/
theorem Decoder.decode_repetition {t : CodeTable} (h : t.valid = true) {e : Bits} {m : Nat}
    (he : e.length = 3 * m) :
    Decoder.decode t .repetition3_1 e = .ok ((List.range m).map fun i =>
      majority (bitAt e (3 * i)) (bitAt e (3 * i + 1)) (bitAt e (3 * i + 2))) := by
  rw [Decoder.decode_of_mod_eq (by simp [Code.n, he])]
  have hflat : ((List.range m).map fun i => majority (bitAt e (3 * i)) (bitAt e (3 * i + 1))
      (bitAt e (3 * i + 2))) = (((List.range m).map fun i =>
      [majority (bitAt e (3 * i)) (bitAt e (3 * i + 1)) (bitAt e (3 * i + 2))])).flatten := by
    induction List.range m with
    | nil => rfl
    | cons a l ih => simp [ih]
  rw [hflat]
  refine Decoder.decBlocks_of_forall₂ (List.forall₂_iff_get.mpr ⟨by simp [he, Code.n], ?_⟩)
  intro i h₁ h₂
  have hlen : ((blocks Code.repetition3_1.n e)[i]).length = 3 :=
    mem_blocks_length (List.getElem_mem h₁)
  simp only [List.get_eq_getElem, List.getElem_map, List.getElem_range]
  rw [Decoder.decBlock_repetition h hlen]
  simp only [getElem_blocks, bitAt_slice, Code.n]
  rw [if_pos (by omega), if_pos (by omega), if_pos (by omega)]
  rw [Nat.mul_comm i 3, Nat.add_zero]

/-- The 32 header bits that code 0 decodes from a 96-bit region. -/
def headerBits (e : Bits) : Bits := (List.range 32).map (headerBit e)

theorem headerField_eq_val (e : Bits) {a : Nat} (ha : a + 16 ≤ 32) :
    val (slice (headerBits e) a (a + 16)) = headerField e a := by
  have hl : (slice (headerBits e) a (a + 16)).length = 16 := by
    rw [slice_length_of_le (by simpa [headerBits] using ha)]; omega
  rw [val_eq_sum, hl, headerField]
  refine Finset.sum_congr rfl fun i hi => ?_
  have hi := Finset.mem_range.mp hi
  rw [bitAt_slice, if_pos (by omega), headerBits, bitAt_range_map, if_pos (by omega)]

/-- The header region decodes to its 32 majorities. -/
theorem Decoder.decode_headerRegion {t : CodeTable} (h : t.valid = true) {e : Bits}
    (he : e.length = 96) : Decoder.decode t .repetition3_1 e = .ok (headerBits e) := by
  have hm : headerBits e = (List.range 32).map fun i =>
      majority (bitAt e (3 * i)) (bitAt e (3 * i + 1)) (bitAt e (3 * i + 2)) := by
    unfold headerBits; congr
  rw [hm, Decoder.decode_repetition h (m := 32) (by omega)]

/-- `decode_header` under a valid table, for an index in range (42_header_codec.md R141). -/
theorem HeaderCodec.decodeHeader_ok {t : CodeTable} (h : t.valid = true) {e : Bits}
    (he : e.length = 96) {c : Code} (hc : headerField e 16 = c.index) :
    HeaderCodec.decodeHeader t e = .ok (headerField e 0, c) := by
  have h₀ : val (slice (headerBits e) 0 16) = headerField e 0 := headerField_eq_val e (by omega)
  have h₁ : val (slice (headerBits e) 16 32) = headerField e 16 := headerField_eq_val e (by omega)
  simp only [HeaderCodec.decodeHeader, hdrCode, Decoder.decode_headerRegion h he, bind, Except.bind,
    h₀, h₁, hc, Code.byIndex_index]

/-- `decode_header` under a valid table, for an index out of range (42_header_codec.md R141, R145). -/
theorem HeaderCodec.decodeHeader_error {t : CodeTable} (h : t.valid = true) {e : Bits}
    (he : e.length = 96) (hc : 3 < headerField e 16) :
    HeaderCodec.decodeHeader t e = .error .headerCorrupt := by
  have h₁ : val (slice (headerBits e) 16 32) = headerField e 16 := headerField_eq_val e (by omega)
  simp only [HeaderCodec.decodeHeader, hdrCode, Decoder.decode_headerRegion h he, bind, Except.bind,
    h₁, Code.byIndex_eq_none.mpr hc]

/-- Only the first 96 bits matter to a header field. -/
theorem headerField_slice {e : Bits} {a : Nat} (ha : a + 16 ≤ 32) :
    headerField (slice e 0 96) a = headerField e a := by
  unfold headerField
  refine Finset.sum_congr rfl fun i hi => ?_
  have hi := Finset.mem_range.mp hi
  simp only [headerBit, bitAt_slice, Nat.zero_add]
  rw [if_pos (by omega), if_pos (by omega), if_pos (by omega)]

end Sys2Proof.Machine
end

