-- ==== Sys2Proof/Laws/State.lean ====
section
/-! SUPPORT. One lemma per field per update of `State`, true by `rfl`, so that no later proof unfolds a
record update; and what the derived reads (`IN`, `OUT`, READY) see of each update. -/

namespace Sys2Proof.Machine

variable (s : State)

@[simp] theorem State.setCode_ct (v : Reg16) : (s.setCode v).ct = s.ct := rfl
@[simp] theorem State.setCode_mem (v : Reg16) : (s.setCode v).mem = s.mem := rfl
@[simp] theorem State.setCode_code (v : Reg16) : (s.setCode v).code = v := rfl
@[simp] theorem State.setCode_n (v : Reg16) : (s.setCode v).n = s.n := rfl
@[simp] theorem State.setCode_k (v : Reg16) : (s.setCode v).k = s.k := rfl
@[simp] theorem State.setCode_len (v : Reg16) : (s.setCode v).len = s.len := rfl
@[simp] theorem State.setCode_status (v : Reg16) : (s.setCode v).status = s.status := rfl
@[simp] theorem State.setCode_script (v : Reg16) : (s.setCode v).script = s.script := rfl
@[simp] theorem State.setCode_line (v : Reg16) : (s.setCode v).line = s.line := rfl
@[simp] theorem State.setCode_expectsHeld (v : Reg16) : (s.setCode v).expectsHeld = s.expectsHeld := rfl
@[simp] theorem State.setCode_inBuf (v : Reg16) : (s.setCode v).inBuf = s.inBuf := rfl
@[simp] theorem State.setCode_outBuf (v : Reg16) : (s.setCode v).outBuf = s.outBuf := rfl
@[simp] theorem State.setCode_ready (v : Reg16) : (s.setCode v).ready = s.ready := rfl
@[simp] theorem State.setCode_fault (v : Reg16) : (s.setCode v).fault = s.fault := rfl

@[simp] theorem State.setN_ct (v : Reg16) : (s.setN v).ct = s.ct := rfl
@[simp] theorem State.setN_mem (v : Reg16) : (s.setN v).mem = s.mem := rfl
@[simp] theorem State.setN_code (v : Reg16) : (s.setN v).code = s.code := rfl
@[simp] theorem State.setN_n (v : Reg16) : (s.setN v).n = v := rfl
@[simp] theorem State.setN_k (v : Reg16) : (s.setN v).k = s.k := rfl
@[simp] theorem State.setN_len (v : Reg16) : (s.setN v).len = s.len := rfl
@[simp] theorem State.setN_status (v : Reg16) : (s.setN v).status = s.status := rfl
@[simp] theorem State.setN_script (v : Reg16) : (s.setN v).script = s.script := rfl
@[simp] theorem State.setN_line (v : Reg16) : (s.setN v).line = s.line := rfl
@[simp] theorem State.setN_expectsHeld (v : Reg16) : (s.setN v).expectsHeld = s.expectsHeld := rfl
@[simp] theorem State.setN_inBuf (v : Reg16) : (s.setN v).inBuf = s.inBuf := rfl
@[simp] theorem State.setN_outBuf (v : Reg16) : (s.setN v).outBuf = s.outBuf := rfl
@[simp] theorem State.setN_ready (v : Reg16) : (s.setN v).ready = s.ready := rfl
@[simp] theorem State.setN_fault (v : Reg16) : (s.setN v).fault = s.fault := rfl

@[simp] theorem State.setK_ct (v : Reg16) : (s.setK v).ct = s.ct := rfl
@[simp] theorem State.setK_mem (v : Reg16) : (s.setK v).mem = s.mem := rfl
@[simp] theorem State.setK_code (v : Reg16) : (s.setK v).code = s.code := rfl
@[simp] theorem State.setK_n (v : Reg16) : (s.setK v).n = s.n := rfl
@[simp] theorem State.setK_k (v : Reg16) : (s.setK v).k = v := rfl
@[simp] theorem State.setK_len (v : Reg16) : (s.setK v).len = s.len := rfl
@[simp] theorem State.setK_status (v : Reg16) : (s.setK v).status = s.status := rfl
@[simp] theorem State.setK_script (v : Reg16) : (s.setK v).script = s.script := rfl
@[simp] theorem State.setK_line (v : Reg16) : (s.setK v).line = s.line := rfl
@[simp] theorem State.setK_expectsHeld (v : Reg16) : (s.setK v).expectsHeld = s.expectsHeld := rfl
@[simp] theorem State.setK_inBuf (v : Reg16) : (s.setK v).inBuf = s.inBuf := rfl
@[simp] theorem State.setK_outBuf (v : Reg16) : (s.setK v).outBuf = s.outBuf := rfl
@[simp] theorem State.setK_ready (v : Reg16) : (s.setK v).ready = s.ready := rfl
@[simp] theorem State.setK_fault (v : Reg16) : (s.setK v).fault = s.fault := rfl

@[simp] theorem State.setLen_ct (v : Reg32) : (s.setLen v).ct = s.ct := rfl
@[simp] theorem State.setLen_mem (v : Reg32) : (s.setLen v).mem = s.mem := rfl
@[simp] theorem State.setLen_code (v : Reg32) : (s.setLen v).code = s.code := rfl
@[simp] theorem State.setLen_n (v : Reg32) : (s.setLen v).n = s.n := rfl
@[simp] theorem State.setLen_k (v : Reg32) : (s.setLen v).k = s.k := rfl
@[simp] theorem State.setLen_len (v : Reg32) : (s.setLen v).len = v := rfl
@[simp] theorem State.setLen_status (v : Reg32) : (s.setLen v).status = s.status := rfl
@[simp] theorem State.setLen_script (v : Reg32) : (s.setLen v).script = s.script := rfl
@[simp] theorem State.setLen_line (v : Reg32) : (s.setLen v).line = s.line := rfl
@[simp] theorem State.setLen_expectsHeld (v : Reg32) : (s.setLen v).expectsHeld = s.expectsHeld := rfl
@[simp] theorem State.setLen_inBuf (v : Reg32) : (s.setLen v).inBuf = s.inBuf := rfl
@[simp] theorem State.setLen_outBuf (v : Reg32) : (s.setLen v).outBuf = s.outBuf := rfl
@[simp] theorem State.setLen_ready (v : Reg32) : (s.setLen v).ready = s.ready := rfl
@[simp] theorem State.setLen_fault (v : Reg32) : (s.setLen v).fault = s.fault := rfl

@[simp] theorem State.setIn_ct (v : Bits) : (s.setIn v).ct = s.ct := rfl
@[simp] theorem State.setIn_mem (v : Bits) : (s.setIn v).mem = { s.mem with inBuf := v } := rfl
@[simp] theorem State.setIn_code (v : Bits) : (s.setIn v).code = s.code := rfl
@[simp] theorem State.setIn_n (v : Bits) : (s.setIn v).n = s.n := rfl
@[simp] theorem State.setIn_k (v : Bits) : (s.setIn v).k = s.k := rfl
@[simp] theorem State.setIn_len (v : Bits) : (s.setIn v).len = s.len := rfl
@[simp] theorem State.setIn_status (v : Bits) : (s.setIn v).status = s.status := rfl
@[simp] theorem State.setIn_script (v : Bits) : (s.setIn v).script = s.script := rfl
@[simp] theorem State.setIn_line (v : Bits) : (s.setIn v).line = s.line := rfl
@[simp] theorem State.setIn_expectsHeld (v : Bits) : (s.setIn v).expectsHeld = s.expectsHeld := rfl
@[simp] theorem State.setIn_inBuf (v : Bits) : (s.setIn v).inBuf = v := rfl
@[simp] theorem State.setIn_outBuf (v : Bits) : (s.setIn v).outBuf = s.outBuf := rfl
@[simp] theorem State.setIn_ready (v : Bits) : (s.setIn v).ready = s.ready := rfl
@[simp] theorem State.setIn_fault (v : Bits) : (s.setIn v).fault = s.fault := rfl

@[simp] theorem State.setOut_ct (v : Bits) : (s.setOut v).ct = s.ct := rfl
@[simp] theorem State.setOut_mem (v : Bits) : (s.setOut v).mem = { s.mem with outBuf := v } := rfl
@[simp] theorem State.setOut_code (v : Bits) : (s.setOut v).code = s.code := rfl
@[simp] theorem State.setOut_n (v : Bits) : (s.setOut v).n = s.n := rfl
@[simp] theorem State.setOut_k (v : Bits) : (s.setOut v).k = s.k := rfl
@[simp] theorem State.setOut_len (v : Bits) : (s.setOut v).len = s.len := rfl
@[simp] theorem State.setOut_status (v : Bits) : (s.setOut v).status = s.status := rfl
@[simp] theorem State.setOut_script (v : Bits) : (s.setOut v).script = s.script := rfl
@[simp] theorem State.setOut_line (v : Bits) : (s.setOut v).line = s.line := rfl
@[simp] theorem State.setOut_expectsHeld (v : Bits) : (s.setOut v).expectsHeld = s.expectsHeld := rfl
@[simp] theorem State.setOut_inBuf (v : Bits) : (s.setOut v).inBuf = s.inBuf := rfl
@[simp] theorem State.setOut_outBuf (v : Bits) : (s.setOut v).outBuf = v := rfl
@[simp] theorem State.setOut_ready (v : Bits) : (s.setOut v).ready = s.ready := rfl
@[simp] theorem State.setOut_fault (v : Bits) : (s.setOut v).fault = s.fault := rfl

@[simp] theorem State.setFault_ct (f : FaultCode) : (s.setFault f).ct = s.ct := rfl
@[simp] theorem State.setFault_mem (f : FaultCode) : (s.setFault f).mem = s.mem := rfl
@[simp] theorem State.setFault_code (f : FaultCode) : (s.setFault f).code = s.code := rfl
@[simp] theorem State.setFault_n (f : FaultCode) : (s.setFault f).n = s.n := rfl
@[simp] theorem State.setFault_k (f : FaultCode) : (s.setFault f).k = s.k := rfl
@[simp] theorem State.setFault_len (f : FaultCode) : (s.setFault f).len = s.len := rfl
@[simp] theorem State.setFault_status (f : FaultCode) : (s.setFault f).status = Status.withFault s.status f.number := rfl
@[simp] theorem State.setFault_script (f : FaultCode) : (s.setFault f).script = s.script := rfl
@[simp] theorem State.setFault_line (f : FaultCode) : (s.setFault f).line = s.line := rfl
@[simp] theorem State.setFault_expectsHeld (f : FaultCode) : (s.setFault f).expectsHeld = s.expectsHeld := rfl
@[simp] theorem State.setFault_inBuf (f : FaultCode) : (s.setFault f).inBuf = s.inBuf := rfl
@[simp] theorem State.setFault_outBuf (f : FaultCode) : (s.setFault f).outBuf = s.outBuf := rfl

@[simp] theorem State.noteExpect_ct (b : Bool) : (s.noteExpect b).ct = s.ct := rfl
@[simp] theorem State.noteExpect_mem (b : Bool) : (s.noteExpect b).mem = s.mem := rfl
@[simp] theorem State.noteExpect_code (b : Bool) : (s.noteExpect b).code = s.code := rfl
@[simp] theorem State.noteExpect_n (b : Bool) : (s.noteExpect b).n = s.n := rfl
@[simp] theorem State.noteExpect_k (b : Bool) : (s.noteExpect b).k = s.k := rfl
@[simp] theorem State.noteExpect_len (b : Bool) : (s.noteExpect b).len = s.len := rfl
@[simp] theorem State.noteExpect_status (b : Bool) : (s.noteExpect b).status = s.status := rfl
@[simp] theorem State.noteExpect_script (b : Bool) : (s.noteExpect b).script = s.script := rfl
@[simp] theorem State.noteExpect_line (b : Bool) : (s.noteExpect b).line = s.line := rfl
@[simp] theorem State.noteExpect_expectsHeld (b : Bool) : (s.noteExpect b).expectsHeld = (s.expectsHeld && b) := rfl
@[simp] theorem State.noteExpect_inBuf (b : Bool) : (s.noteExpect b).inBuf = s.inBuf := rfl
@[simp] theorem State.noteExpect_outBuf (b : Bool) : (s.noteExpect b).outBuf = s.outBuf := rfl
@[simp] theorem State.noteExpect_ready (b : Bool) : (s.noteExpect b).ready = s.ready := rfl
@[simp] theorem State.noteExpect_fault (b : Bool) : (s.noteExpect b).fault = s.fault := rfl

@[simp] theorem State.advance_ct (r : Script) : (s.advance r).ct = s.ct := rfl
@[simp] theorem State.advance_mem (r : Script) : (s.advance r).mem = s.mem := rfl
@[simp] theorem State.advance_code (r : Script) : (s.advance r).code = s.code := rfl
@[simp] theorem State.advance_n (r : Script) : (s.advance r).n = s.n := rfl
@[simp] theorem State.advance_k (r : Script) : (s.advance r).k = s.k := rfl
@[simp] theorem State.advance_len (r : Script) : (s.advance r).len = s.len := rfl
@[simp] theorem State.advance_status (r : Script) : (s.advance r).status = s.status := rfl
@[simp] theorem State.advance_script (r : Script) : (s.advance r).script = r := rfl
@[simp] theorem State.advance_line (r : Script) : (s.advance r).line = s.line + 1 := rfl
@[simp] theorem State.advance_expectsHeld (r : Script) : (s.advance r).expectsHeld = s.expectsHeld := rfl
@[simp] theorem State.advance_inBuf (r : Script) : (s.advance r).inBuf = s.inBuf := rfl
@[simp] theorem State.advance_outBuf (r : Script) : (s.advance r).outBuf = s.outBuf := rfl
@[simp] theorem State.advance_ready (r : Script) : (s.advance r).ready = s.ready := rfl
@[simp] theorem State.advance_fault (r : Script) : (s.advance r).fault = s.fault := rfl

end Sys2Proof.Machine
end

