-- ==== Sys2Proof/Laws/Ops.lean ====
section
/-! SUPPORT. One lemma for each shared operation that says everything it can do: the status register,
fault entry, the two ends of a command, and from them everything a command can do. -/

namespace Sys2Proof.Machine

/-! ### The status register -/

@[simp] theorem Status.ready_withFault (st : Byte) (f : BitVec 3) :
    Status.ready (Status.withFault st f) = Status.ready st := by
  revert st f; decide +kernel

@[simp] theorem Status.reserved_withFault (st : Byte) (f : BitVec 3) :
    Status.reserved (Status.withFault st f) = Status.reserved st := by
  revert st f; decide +kernel

@[simp] theorem Status.fault_withFault (st : Byte) (f : BitVec 3) :
    Status.fault (Status.withFault st f) = f := by
  revert st f; decide +kernel

@[simp] theorem Status.withFault_withFault (st : Byte) (f g : BitVec 3) :
    Status.withFault (Status.withFault st f) g = Status.withFault st g := by
  revert st f g; decide +kernel

/-- Writing the fault field, by masks. -/
theorem Status.withFault_eq_mask (st : Byte) (f : BitVec 3) :
    Status.withFault st f = Sys2Proof.Claim.status st f.toNat := by
  revert st f; decide +kernel

theorem FaultCode.number_le (f : FaultCode) : f.number.toNat ≤ 5 := by
  rcases f with _ | f
  · decide
  · cases f <;> decide

theorem RaisedFault.number_ne_zero (f : RaisedFault) : f.number ≠ 0 := by cases f <;> decide

@[simp] theorem State.setFault_ready (s : State) (f : FaultCode) : (s.setFault f).ready = s.ready :=
  Status.ready_withFault _ _

@[simp] theorem State.setFault_fault (s : State) (f : FaultCode) : (s.setFault f).fault = f.number :=
  Status.fault_withFault _ _

/-! ### The buffers -/

theorem Memory.holds_iff (m : Memory) (len : Nat) :
    m.holds len = true ↔ ∀ c, m.cap = some c → len ≤ c := by
  unfold Memory.holds
  split <;> simp_all

@[simp] theorem Memory.holds_zero (m : Memory) : m.holds 0 = true := by simp [Memory.holds_iff]

@[simp] theorem Memory.holds_setIn (s : State) (v : Bits) (len : Nat) :
    (s.setIn v).mem.holds len = s.mem.holds len := rfl

@[simp] theorem Memory.holds_setOut (s : State) (v : Bits) (len : Nat) :
    (s.setOut v).mem.holds len = s.mem.holds len := rfl

/-- A host write to `IN` that fits keeps the form of the buffers. -/
theorem Memory.wf_setIn {s : State} {v : Bits} (h : s.mem.wf = true) (hv : s.mem.holds v.length = true) :
    (s.setIn v).mem.wf = true := by
  simp only [Memory.wf, Bool.and_eq_true] at h ⊢
  exact ⟨hv, h.2⟩

/-- A write to `OUT` that fits keeps the form of the buffers. -/
theorem Memory.wf_setOut {s : State} {v : Bits} (h : s.mem.wf = true) (hv : s.mem.holds v.length = true) :
    (s.setOut v).mem.wf = true := by
  simp only [Memory.wf, Bool.and_eq_true] at h ⊢
  exact ⟨h.1, hv⟩

/-! ### Fault entry -/

/-- Everything fault entry does (60_exceptions.md R200). -/
theorem State.takeFault_eq (s : State) (i : Instr) (f : RaisedFault) :
    s.takeFault i f =
      { s with
        mem := { s.mem with outBuf := if writesOut i then [] else s.outBuf }
        status := Status.withFault s.status f.number } := by
  cases i <;> rfl

@[simp] theorem State.takeFault_fault (s : State) (i : Instr) (f : RaisedFault) :
    (s.takeFault i f).fault = f.number := by simp [State.takeFault, FaultCode.number]

@[simp] theorem State.takeFault_ready (s : State) (i : Instr) (f : RaisedFault) :
    (s.takeFault i f).ready = s.ready := by cases i <;> simp [State.takeFault, writesOut]

theorem Memory.wf_takeFault {s : State} (i : Instr) (f : RaisedFault) (h : s.mem.wf = true) :
    (s.takeFault i f).mem.wf = true := by
  cases i <;> first | exact h | exact Memory.wf_setOut h (by simp)

/-! ### The ends of a command -/

theorem whenReady_eq_next {s s' : State} {act : StepResult} :
    whenReady s act = .next s' ↔ s.ready = true ∧ act = .next s' := by
  unfold whenReady; split <;> simp_all

@[simp] theorem whenReady_of_ready {s : State} (h : s.ready = true) (act : StepResult) :
    whenReady s act = act := if_pos h

theorem whenReady_of_not_ready {s : State} (h : s.ready = false) (act : StepResult) :
    whenReady s act = .refused .notReady := by simp [whenReady, h]

/-- Everything the end of a command that writes `OUT` can answer as a next state. -/
theorem finishOut_next_cases {i : Instr} {s s' : State} {r : Except RaisedFault Bits}
    (h : finishOut i s r = .next s') :
    (∃ f, r = .error f ∧ s' = s.takeFault i f) ∨
      ∃ v, r = .ok v ∧ s.mem.holds v.length = true ∧ s' = (s.setOut v).setFault .ok := by
  unfold finishOut at h
  split at h
  · exact .inl ⟨_, rfl, by simpa using h.symm⟩
  · split at h
    · exact .inr ⟨_, rfl, ‹_›, by simpa using h.symm⟩
    · cases h

/-- Everything the end of a command that writes registers can answer as a next state. -/
theorem finishRegs_next_cases {i : Instr} {s s' : State} {r : Except RaisedFault State}
    (h : finishRegs i s r = .next s') :
    (∃ f, r = .error f ∧ s' = s.takeFault i f) ∨ ∃ s₁, r = .ok s₁ ∧ s' = s₁.setFault .ok := by
  unfold finishRegs at h
  split at h
  · exact .inl ⟨_, rfl, by simpa using h.symm⟩
  · exact .inr ⟨_, rfl, by simpa using h.symm⟩

/-- An `Except` sequence answers `ok` exactly when both parts do. -/
theorem Except.bind_eq_ok {ε α β : Type} {x : Except ε α} {f : α → Except ε β} {b : β} :
    (x >>= f) = .ok b ↔ ∃ a, x = .ok a ∧ f a = .ok b := by
  cases x <;> simp [bind, Except.bind]

/-- An `Except` sequence answers `error` exactly when its first part does, or its second. -/
theorem Except.bind_eq_error {ε α β : Type} {x : Except ε α} {f : α → Except ε β} {e : ε} :
    (x >>= f) = .error e ↔ x = .error e ∨ ∃ a, x = .ok a ∧ f a = .error e := by
  cases x <;> simp [bind, Except.bind]

/-! ### The operands -/

theorem State.codeOperand_eq_ok {s : State} {c : Code} :
    s.codeOperand = .ok c ↔ s.code.toNat = c.index := by
  unfold State.codeOperand
  split
  · rename_i d h; simp only [Except.ok.injEq]
    rw [← Code.byIndex_eq_some, h, Option.some.injEq]
  · rename_i h; simp only [reduceCtorEq, false_iff]
    intro hc; rw [hc, Code.byIndex_index] at h; cases h

theorem State.codeOperand_eq_error {s : State} {f : RaisedFault} :
    s.codeOperand = .error f ↔ f = .unsupportedCode ∧ 3 < s.code.toNat := by
  unfold State.codeOperand
  split
  · rename_i d h
    have := Code.byIndex_eq_some.mp h; have := d.index_le
    simp; omega
  · rename_i h; simp [Code.byIndex_eq_none.mp h, eq_comm]

theorem State.lengthOperand_eq_ok {s : State} {c : Code} :
    s.lengthOperand = .ok c ↔ s.n.toNat = c.n := by
  unfold State.lengthOperand
  split
  · rename_i d h; simp only [Except.ok.injEq]
    rw [← Code.byLength_eq_some, h, Option.some.injEq]
  · rename_i h; simp only [reduceCtorEq, false_iff]
    intro hc; rw [hc, Code.byLength_n] at h; cases h

theorem State.lengthOperand_eq_error {s : State} {f : RaisedFault} :
    s.lengthOperand = .error f ↔
      f = .unsupportedCode ∧ s.n.toNat ≠ 3 ∧ s.n.toNat ≠ 7 ∧ s.n.toNat ≠ 15 ∧ s.n.toNat ≠ 31 := by
  rw [← Code.byLength_eq_none]
  unfold State.lengthOperand
  split
  · rename_i c h; simp [h]
  · rename_i h; simp [h, eq_comm]

/-! ### In the vocabulary of the claims -/

open Sys2Proof.Claim in
/-- `STATUS.FAULT <- f` and nothing else. -/
theorem State.setFault_eq (s : State) (f : FaultCode) : s.setFault f = faultKeep s f.number.toNat := by
  simp [State.setFault, faultKeep, Status.withFault_eq_mask]

open Sys2Proof.Claim in
/-- A result in `OUT` with FAULT = 0. -/
theorem State.setOut_setFault_eq (s : State) (v : Bits) :
    (s.setOut v).setFault .ok = outFault s v 0 := by
  rw [State.setFault_eq]; rfl

open Sys2Proof.Claim in
/-- Fault entry as the claims write it. -/
theorem State.takeFault_eq_claim (s : State) (i : Instr) (f : RaisedFault) :
    s.takeFault i f = outFault s (outAfterFault i s) f.number.toNat := by
  unfold State.takeFault
  rw [State.setFault_eq]
  cases i <;> rfl

open Sys2Proof.Claim in
theorem outFault_outBuf (s : State) (f : Nat) : outFault s s.outBuf f = faultKeep s f := rfl

open Sys2Proof.Claim in
/-- A command that writes `OUT` ends with its result. -/
theorem finishOut_ok {i : Instr} {s : State} {v : Bits} (h : Fits s v.length) :
    finishOut i s (.ok v) = .next (outFault s v 0) := by
  rw [← State.setOut_setFault_eq]
  simp [finishOut, (Memory.holds_iff _ _).mpr h]

open Sys2Proof.Claim in
/-- A command that writes `OUT` ends with a fault. -/
theorem finishOut_error {i : Instr} {s : State} {f : RaisedFault} (h : i ∈ outWriters) :
    finishOut i s (.error f) = .next (outFault s [] f.number.toNat) := by
  simp only [finishOut, State.takeFault_eq_claim, outAfterFault, if_pos h]

open Sys2Proof.Claim in
/-- A command that writes registers ends with a fault. -/
theorem finishRegs_error {i : Instr} {s : State} {f : RaisedFault} (h : i ∉ outWriters) :
    finishRegs i s (.error f) = .next (faultKeep s f.number.toNat) := by
  simp only [finishRegs, State.takeFault_eq_claim, outAfterFault, if_neg h, outFault_outBuf]

open Sys2Proof.Claim in
/-- A command that writes registers ends with its results. -/
theorem finishRegs_ok {i : Instr} {s s₁ : State} :
    finishRegs i s (.ok s₁) = .next (faultKeep s₁ 0) := by
  simp only [finishRegs, State.setFault_eq]; rfl

/-! ### Everything a command can do -/

/-- The result registers of a command that writes registers, on success (10_state.md R33). -/
def ResultRegs (i : Instr) (s s₁ : State) : Prop :=
  match i with
  | .ctidx => ∃ c : Code, s₁ = (s.setN (BitVec.ofNat 16 c.n)).setK (BitVec.ofNat 16 c.k)
  | .ctlen => ∃ c : Code, s₁ = (s.setCode (BitVec.ofNat 16 c.index)).setK (BitVec.ofNat 16 c.k)
  | .hdrdec => ∃ (len : Nat) (c : Code),
      s₁ = (s.setLen (BitVec.ofNat 32 len)).setCode (BitVec.ofNat 16 c.index)
  | _ => False

/-- Everything a command can answer as a next state: READY was 1, and it took a fault, or it wrote
`OUT`, or it wrote its result registers. -/
theorem exec_next_cases {i : Instr} {s s' : State} (h : exec i s = .next s') :
    s.ready = true ∧
      ((∃ f, s' = s.takeFault i f) ∨
        (writesOut i = true ∧ ∃ v, s.mem.holds v.length = true ∧ s' = (s.setOut v).setFault .ok) ∨
        ∃ s₁, ResultRegs i s s₁ ∧ s' = s₁.setFault .ok) := by
  cases i <;> simp only [exec, execCtidx, execCtlen, execEncode, execHdrbld, execHdrenc, execHdrdec,
    execFrmbld, execDecode, execFrmprs, whenReady_eq_next] at h <;> obtain ⟨hr, h⟩ := h <;>
    refine ⟨hr, ?_⟩
  case ctidx =>
    obtain ⟨f, -, rfl⟩ | ⟨s₁, h₁, rfl⟩ := finishRegs_next_cases h
    · exact .inl ⟨f, rfl⟩
    · obtain ⟨c, -, hc⟩ := Except.bind_eq_ok.mp h₁
      exact .inr (.inr ⟨s₁, ⟨c, by cases hc; rfl⟩, rfl⟩)
  case ctlen =>
    obtain ⟨f, -, rfl⟩ | ⟨s₁, h₁, rfl⟩ := finishRegs_next_cases h
    · exact .inl ⟨f, rfl⟩
    · obtain ⟨c, -, hc⟩ := Except.bind_eq_ok.mp h₁
      exact .inr (.inr ⟨s₁, ⟨c, by cases hc; rfl⟩, rfl⟩)
  case hdrdec =>
    obtain ⟨f, -, rfl⟩ | ⟨s₁, h₁, rfl⟩ := finishRegs_next_cases h
    · exact .inl ⟨f, rfl⟩
    · obtain ⟨e, -, h₂⟩ := Except.bind_eq_ok.mp h₁
      obtain ⟨⟨len, c⟩, -, hc⟩ := Except.bind_eq_ok.mp h₂
      exact .inr (.inr ⟨s₁, ⟨len, c, by cases hc; rfl⟩, rfl⟩)
  case hdrenc =>
    split at h
    · obtain ⟨f, -, rfl⟩ | ⟨v, -, hv, rfl⟩ := finishOut_next_cases h
      · exact .inl ⟨f, rfl⟩
      · exact .inr (.inl ⟨rfl, v, hv, rfl⟩)
    · cases h
  all_goals
    obtain ⟨f, -, rfl⟩ | ⟨v, -, hv, rfl⟩ := finishOut_next_cases h
    · exact .inl ⟨f, rfl⟩
    · exact .inr (.inl ⟨rfl, v, hv, rfl⟩)

/-- No command stops with a fault of the model. -/
theorem exec_ne_fault (i : Instr) (s : State) (e : Fault) : exec i s ≠ .fault e := by
  cases i <;> simp only [exec, execCtidx, execCtlen, execEncode, execHdrbld, execHdrenc, execHdrdec,
    execFrmbld, execDecode, execFrmprs, whenReady, finishRegs, finishOut] <;> split <;>
    (try split) <;> (try split) <;> simp

end Sys2Proof.Machine
end

