-- ==== Sys2Proof/Laws/PerInstr.lean ====
section
/-! SUPPORT. The per-instruction family WordFields: the word of a command is one of the nine of
30_encoding.md R71, its UNIT and FUNC stand in bits 7:4 and 3:0 (R70), and they are well formed. -/

/-- The encoding of one command. -/
def Sys2Proof.Laws.WordFields.Statement (i : Sys2Proof.Instr) : Prop :=
  i.wf = true ∧ Sys2Proof.fieldsOf (Sys2Proof.encode i) = i.fields ∧
    Sys2Proof.encode i = i.fields.unit ++ i.fields.func

theorem Sys2Proof.Laws.WordFields.ctidx : Statement .ctidx := by unfold Statement; decide
theorem Sys2Proof.Laws.WordFields.ctlen : Statement .ctlen := by unfold Statement; decide
theorem Sys2Proof.Laws.WordFields.encode : Statement .encode := by unfold Statement; decide
theorem Sys2Proof.Laws.WordFields.hdrbld : Statement .hdrbld := by unfold Statement; decide
theorem Sys2Proof.Laws.WordFields.hdrenc : Statement .hdrenc := by unfold Statement; decide
theorem Sys2Proof.Laws.WordFields.hdrdec : Statement .hdrdec := by unfold Statement; decide
theorem Sys2Proof.Laws.WordFields.frmbld : Statement .frmbld := by unfold Statement; decide
theorem Sys2Proof.Laws.WordFields.decode : Statement .decode := by unfold Statement; decide
theorem Sys2Proof.Laws.WordFields.frmprs : Statement .frmprs := by unfold Statement; decide
end

