-- ==== Sys2Proof/Laws/Step.lean ====
section
/-! SUPPORT. Everything a line and a step can do, said once. -/

namespace Sys2Proof.Machine

theorem sendWord_of_decode {w : Byte} {i : Instr} (h : Sys2Proof.decode w = .ok i) (s : State) :
    sendWord w s = exec i s := by
  simp [sendWord, h]

theorem hostWriteIn_eq_next {v : Bits} {s s' : State} :
    hostWriteIn v s = .next s' ↔ s.mem.holds v.length = true ∧ s' = s.setIn v := by
  unfold hostWriteIn
  split
  · rename_i h; simp only [Host.Outcome.next.injEq, h, true_and]; exact eq_comm
  · rename_i h; simp [h]

/-- Everything a line can answer as a next state: a command was performed on a state that differs at
most in a register the line selected first, or the host wrote `IN` or a register, or compared. -/
theorem performLine_next_cases {l : Line} {s s' : State} (h : performLine l s = .next s') :
    (∃ i s₁, (s₁ = s ∨ (∃ v, s₁ = s.setN v) ∨ ∃ v, s₁ = s.setCode v) ∧ exec i s₁ = .next s') ∨
      (∃ v, s.mem.holds v.length = true ∧ s' = s.setIn v) ∨
      (∃ v, s' = s.setCode v) ∨ (∃ v, s' = s.setN v) ∨ (∃ v, s' = s.setK v) ∨
      (∃ v, s' = s.setLen v) ∨ ∃ b, s' = s.noteExpect b := by
  cases l <;> simp only [performLine, Host.Outcome.next.injEq] at h
  case command w =>
    unfold sendWord at h
    split at h
    · exact .inl ⟨_, s, .inl rfl, h⟩
    · cases h
  case setIn v => exact .inr (.inl ⟨v, hostWriteIn_eq_next.mp h⟩)
  case loopback => exact .inr (.inl ⟨_, hostWriteIn_eq_next.mp h⟩)
  case flip p =>
    unfold hostFlip at h
    split at h
    · exact .inr (.inl ⟨_, hostWriteIn_eq_next.mp h⟩)
    · cases h
  case selLen n => exact .inl ⟨_, _, .inr (.inl ⟨n, rfl⟩), h⟩
  case selIdx c => exact .inl ⟨_, _, .inr (.inr ⟨c, rfl⟩), h⟩
  case setCode v => exact .inr (.inr (.inl ⟨v, h.symm⟩))
  case setN v => exact .inr (.inr (.inr (.inl ⟨v, h.symm⟩)))
  case setK v => exact .inr (.inr (.inr (.inr (.inl ⟨v, h.symm⟩))))
  case setLen v => exact .inr (.inr (.inr (.inr (.inr (.inl ⟨v, h.symm⟩)))))
  all_goals exact .inr (.inr (.inr (.inr (.inr (.inr ⟨_, h.symm⟩)))))

/-- Everything a step can answer as a next state. -/
theorem step_next_cases {s s' : State} (h : step s = .next s') :
    (s.script = [] ∧ s' = s) ∨
      ∃ l rest, s.script = l :: rest ∧ performLine l (s.advance rest) = .next s' := by
  unfold step at h
  split at h
  · exact .inl ⟨‹_›, by simpa using h.symm⟩
  · exact .inr ⟨_, _, ‹_›, h⟩

theorem step_of_script {s : State} {l : Line} {rest : Script} (h : s.script = l :: rest) :
    step s = performLine l (s.advance rest) := by
  simp [step, h]

/-- No line but a FLIP outside `IN` stops the model. -/
theorem performLine_eq_fault {l : Line} {s : State} {e : Fault} :
    performLine l s = .fault e ↔
      e = .flipOutOfRange ∧ ∃ p, l = .flip p ∧ s.inBuf.length ≤ p := by
  cases l <;> simp only [performLine, sendWord, hostWriteIn, hostFlip, reduceCtorEq, false_and,
    and_false, exists_false, Line.flip.injEq, exists_eq_left']
  case command w => split <;> simp [exec_ne_fault]
  case setIn v => split <;> simp
  case loopback => split <;> simp
  case selLen n => simp [exec_ne_fault]
  case selIdx c => simp [exec_ne_fault]
  case flip p =>
    split
    · split <;> simp <;> omega
    · cases e; simp; omega

end Sys2Proof.Machine
end

