-- ==== Sys2Proof/Machine/ScriptText.lean ====
section
/-! DEFINITION. The written form of a script (30_encoding.md R90 to R92): one line each for a command
mnemonic, a host action or a pseudo-line; `;` starts a comment. A text that is not of this form is
rejected whole (`none`). -/

namespace Sys2Proof.Machine

/-- The mnemonic of a command (30_encoding.md R71). -/
def mnemonic (i : Instr) : String :=
  match i with
  | .ctidx  => "CTIDX"
  | .ctlen  => "CTLEN"
  | .encode => "ENCODE"
  | .hdrbld => "HDRBLD"
  | .hdrenc => "HDRENC"
  | .hdrdec => "HDRDEC"
  | .frmbld => "FRMBLD"
  | .decode => "DECODE"
  | .frmprs => "FRMPRS"

/-- The name of a fault (60_exceptions.md R191). -/
def faultName (f : FaultCode) : String :=
  match f with
  | .ok => "OK"
  | .raised .unsupportedCode => "UnsupportedCode"
  | .raised .valueOutOfRange => "ValueOutOfRange"
  | .raised .headerCorrupt => "HeaderCorrupt"
  | .raised .uncorrectableBlock => "UncorrectableBlock"
  | .raised .frameTruncated => "FrameTruncated"

/-- The name of a register in a script (30_encoding.md R91). -/
def regName (r : RegName) : String :=
  match r with
  | .code => "CODE"
  | .n => "N"
  | .k => "K"
  | .len => "LEN"
  | .status => "STATUS"

/-- The word of a line is this name. -/
def isWord (t : List Char) (name : String) : Bool := t == name.toList

/-- The members of a list cut at every character that satisfies `p`. -/
def cutAt (p : Char → Bool) : List Char → List (List Char)
  | [] => [[]]
  | c :: cs =>
    match cutAt p cs with
    | [] => [[c]]
    | w :: ws => if p c then [] :: w :: ws else (c :: w) :: ws

/-- The words of a line, the comment left out (30_encoding.md R90). -/
def lineWords (t : List Char) : List (List Char) :=
  (cutAt (fun c => c == ' ' || c == '\t') (t.takeWhile (· != ';'))).filter (!·.isEmpty)

/-- The value of a digit in base 10 or 16. -/
def digit (base : Nat) (c : Char) : Option Nat :=
  let v :=
    if '0' ≤ c && c ≤ '9' then c.toNat - '0'.toNat
    else if 'a' ≤ c && c ≤ 'f' then c.toNat - 'a'.toNat + 10
    else if 'A' ≤ c && c ≤ 'F' then c.toNat - 'A'.toNat + 10
    else base
  if v < base then some v else none

/-- A numeral: the digits, at least one, most significant first. -/
def digits (base : Nat) (t : List Char) : Option Nat :=
  if t.isEmpty then none
  else t.foldl (fun acc c => do return (← acc) * base + (← digit base c)) (some 0)

/-- A number, decimal, or hexadecimal with `0x` (30_encoding.md R90). -/
def number (t : List Char) : Option Nat :=
  match t with
  | '0' :: 'x' :: ds => digits 16 ds
  | ds => digits 10 ds

/-- A number that a register of `w` bits can hold (30_encoding.md R91). -/
def numberOf (w : Nat) (t : List Char) : Option (BitVec w) := do
  let v ← number t
  if v < 2 ^ w then return BitVec.ofNat w v else none

/-- The double quote, which begins and ends a bit sequence. -/
def quote : Char := Char.ofNat 34

/-- The `0` and `1` of a bit sequence up to the quote that ends it. -/
def bitsUpToQuote : List Char → Option Bits
  | [] => none
  | c :: cs =>
    if c == quote then (if cs.isEmpty then some [] else none)
    else if c == '0' then (bitsUpToQuote cs).map (false :: ·)
    else if c == '1' then (bitsUpToQuote cs).map (true :: ·)
    else none

/-- A bit sequence in quotes, first bit leftmost (30_encoding.md R90). -/
def bitString (t : List Char) : Option Bits :=
  match t with
  | [] => none
  | c :: cs => if c == quote then bitsUpToQuote cs else none

/-- The nine commands, in the order of 30_encoding.md R71. -/
def allInstrs : List Instr :=
  [.ctidx, .ctlen, .encode, .hdrbld, .hdrenc, .hdrdec, .frmbld, .decode, .frmprs]

/-- The names an `EXPECT FAULT` line can give (60_exceptions.md R191). -/
def allFaultCodes : List FaultCode :=
  [.ok, .raised .unsupportedCode, .raised .valueOutOfRange, .raised .headerCorrupt,
    .raised .uncorrectableBlock, .raised .frameTruncated]

/-- The registers an `EXPECT` line can name. -/
def allRegNames : List RegName := [.code, .n, .k, .len, .status]

/-- A line of one word: a command mnemonic (R90) or LOOPBACK (R92). -/
def parseOne (t : List Char) : Option Line :=
  if isWord t "LOOPBACK" then some .loopback
  else (allInstrs.find? fun i => isWord t (mnemonic i)).map fun i => .command (Sys2Proof.encode i)

/-- A line of two words: a pseudo-line with its operand (R92). -/
def parseTwo (t v : List Char) : Option Line :=
  if isWord t "FLIP" then (number v).map .flip
  else if isWord t "SELLEN" then (numberOf 16 v).map .selLen
  else if isWord t "SELIDX" then (numberOf 16 v).map .selIdx
  else none

/-- A host write (R91). -/
def parseWrite (t v : List Char) : Option Line :=
  if isWord t "IN" then (bitString v).map .setIn
  else if isWord t "CODE" then (numberOf 16 v).map .setCode
  else if isWord t "N" then (numberOf 16 v).map .setN
  else if isWord t "K" then (numberOf 16 v).map .setK
  else if isWord t "LEN" then (numberOf 32 v).map .setLen
  else none

/-- The comparison of an `EXPECT` line (R91). -/
def parseExpect (t v : List Char) : Option Line :=
  if isWord t "OUT" then (bitString v).map .expectOut
  else if isWord t "FAULT" then
    (allFaultCodes.find? fun f => isWord v (faultName f)).map .expectFault
  else do
    let r ← allRegNames.find? fun r => isWord t (regName r)
    return .expectReg r (← number v)

/-- One line of at least one word (R90). -/
def parseWords (ws : List (List Char)) : Option Line :=
  match ws with
  | [t] => parseOne t
  | [t, v] => parseTwo t v
  | [t, a, v] => if isWord a "<-" then parseWrite t v else none
  | [e, t, a, v] => if isWord e "EXPECT" && isWord a "=" then parseExpect t v else none
  | _ => none

/-- The lines of a script, top to bottom; an empty line or a comment alone is no line (R90). -/
def parseScript (text : String) : Option Script :=
  ((cutAt (· == '\n') text.toList).map lineWords |>.filter (!·.isEmpty)).mapM parseWords

/-- A script is handed to the host, which begins at its line 0 (10_state.md R40); `none` when the text
is not a script. -/
def State.loadScript (s : State) (text : String) : Option State :=
  (parseScript text).map fun ls => { s with script := ls, line := 0 }

end Sys2Proof.Machine
end

