-- ==== Sys2Proof/Tests/Slice0.lean ====
section
/-! SUPPORT. The model's own tests: the smoke tests of the checks, the decoding of every word written
out from 30_encoding.md R71, at most two tests per command with the results of 95_test_vectors.md, and
for every statement with hypotheses a state that meets them. `row w v` writes a bit sequence of `w`
bits as a binary numeral, first bit leftmost. -/

namespace Sys2Proof.Tests

open Sys2Proof.Machine Sys2Proof.Claim

set_option Elab.async false

/-! ### Helpers -/

/-- The block after reset, ready, with the bit 1 in `OUT` (so that emptying it shows) and `v` in `IN`. -/
def block (v : Bits) : State :=
  { State.reset with mem := ⟨v, [true], none⟩, status := 0x80 }

/-- `block v` with `c` in `CODE`. -/
def coded (c : Nat) (v : Bits) : State := { block v with code := BitVec.ofNat 16 c }

/-- `block v` with `l` in `LEN` and `c` in `CODE`. -/
def sized (l c : Nat) : State := { coded c [] with len := BitVec.ofNat 32 l }

/-- `s` with a finite capacity. -/
def capped (s : State) (c : Nat) : State := { s with mem := { s.mem with cap := some c } }

/-- A table that is not valid: column 1 and column 2 of `H(0)` are equal, and `1 1` is no column. -/
def badTable : CodeTable := { refTable with entry0 := ⟨[[true, true, true]], [row 3 0b100, row 3 0b011]⟩ }

/-- The next state, when there is one. -/
def nextOf (r : StepResult) : Option State :=
  match r with
  | .next s => some s
  | .fault _ => none
  | .refused _ => none

/-- The refusal, when there is one. -/
def refusalOf (r : StepResult) : Option Refusal :=
  match r with
  | .next _ => none
  | .fault _ => none
  | .refused e => some e

/-- `OUT` and FAULT of the next state. -/
def outOf (r : StepResult) : Option (Bits × Nat) := (nextOf r).map fun s => (s.outBuf, s.fault.toNat)

/-- A next state that satisfies `p`. -/
def nextIs (r : StepResult) (p : State → Bool) : Bool := (nextOf r).any p

theorem exists_next {r : StepResult} {p : State → Bool} (h : nextIs r p = true) :
    ∃ s, r = .next s ∧ p s = true := by
  cases r with
  | next s => exact ⟨s, rfl, h⟩
  | fault _ => cases h
  | refused _ => cases h

theorem refused_of {r : StepResult} {e : Refusal} (h : refusalOf r = some e) : r = .refused e := by
  cases r with
  | next _ => cases h
  | fault _ => cases h
  | refused _ => cases h; rfl

theorem fits_infinite {s : State} (h : s.mem.cap = none) (m : Nat) : Fits s m := fun c hc => by
  rw [h] at hc; cases hc

theorem fits_finite {s : State} {c m : Nat} (h : s.mem.cap = some c) (hm : m ≤ c) : Fits s m :=
  fun d hd => by rw [h] at hd; cases hd; exact hm

theorem refTable_valid : refTable.valid = true := by decide +kernel

theorem ready_80 {s : State} (h : s.status = 0x80) : s.ready = true := by
  unfold State.ready; rw [h]; decide

theorem usable_block (v : Bits) : (block v).Usable := ⟨ready_80 rfl, refTable_valid⟩

theorem usable_coded (c : Nat) (v : Bits) : (coded c v).Usable := ⟨ready_80 rfl, refTable_valid⟩

/-! ### Smoke tests: each check refuses an ill-formed term -/

theorem smoke_unit_6_names_no_component : (CommandFields.mk 6 0).unitOk = false := by decide

theorem smoke_unit_6_is_ill_formed : (CommandFields.mk 6 0).wf = false := by decide

theorem smoke_encoder_has_no_func_1 :
    (CommandFields.mk 1 1).unitOk = true ∧ (CommandFields.mk 1 1).funcOk = false := by decide

theorem smoke_word_02_is_ill_formed : (fieldsOf 0x02).wf = false := by decide

theorem smoke_every_command_is_well_formed : ∀ i : Instr, i.wf = true := by intro i; cases i <;> decide

theorem smoke_full_buffer_over_capacity : (Memory.mk (zeros 4) [] (some 3)).wf = false := by decide

theorem smoke_out_over_capacity : (Memory.mk [] (zeros 4) (some 3)).wf = false := by decide

theorem smoke_reset_memory_is_well_formed : State.reset.mem.wf = true := by decide

/-- R104 (a): a matrix with no row. -/
theorem smoke_table_shape :
    ({ refTable with entry0 := ⟨[], refPar .repetition3_1⟩ } : CodeTable).shapesOk .repetition3_1 = false := by
  decide +kernel

/-- R104 (b): the last column of `G(0)` is not the identity. -/
theorem smoke_table_systematic :
    ({ refTable with entry0 := ⟨[row 3 0b110], refPar .repetition3_1⟩ } : CodeTable).systematic
      .repetition3_1 = false := by decide +kernel

/-- R104 (c): two equal columns, and an all-zero column. -/
theorem smoke_table_columns :
    badTable.columnsOk .repetition3_1 = false ∧
    ({ refTable with entry0 := ⟨refGen .repetition3_1, [row 3 0b010, row 3 0b001]⟩ } : CodeTable).columnsOk
      .repetition3_1 = false := by decide +kernel

/-- R104 (d): one check bit of `G(1)` changed; shapes, systematic form and columns still hold. -/
theorem smoke_table_orthogonal :
    let t : CodeTable := { refTable with
      entry1 := ⟨[0b0101000, 0b1010100, 0b0110010, 0b1110001].map (row 7), refPar .hamming7_4⟩ }
    t.shapesOk .hamming7_4 = true ∧ t.systematic .hamming7_4 = true ∧ t.columnsOk .hamming7_4 = true ∧
      t.orthogonal .hamming7_4 = false := by decide +kernel

theorem smoke_bad_table_is_not_valid : badTable.valid = false := by decide +kernel

/-! ### Decoding: the words of 30_encoding.md R71, bit by bit -/

theorem test_decode_ctidx : Sys2Proof.decode 0b00000000#8 = .ok .ctidx := by decide
theorem test_decode_ctlen : Sys2Proof.decode 0b00000001#8 = .ok .ctlen := by decide
theorem test_decode_encode : Sys2Proof.decode 0b00010000#8 = .ok .encode := by decide
theorem test_decode_hdrbld : Sys2Proof.decode 0b00100000#8 = .ok .hdrbld := by decide
theorem test_decode_hdrenc : Sys2Proof.decode 0b00100001#8 = .ok .hdrenc := by decide
theorem test_decode_hdrdec : Sys2Proof.decode 0b00100010#8 = .ok .hdrdec := by decide
theorem test_decode_frmbld : Sys2Proof.decode 0b00110000#8 = .ok .frmbld := by decide
theorem test_decode_decode : Sys2Proof.decode 0b01000000#8 = .ok .decode := by decide
theorem test_decode_frmprs : Sys2Proof.decode 0b01010000#8 = .ok .frmprs := by decide

/-- R72: the reserved words beside the commands, by the name of the reason. -/
theorem test_decode_reserved :
    Sys2Proof.decode 0b00000010#8 = .error .reservedFunc ∧
    Sys2Proof.decode 0b00010001#8 = .error .reservedFunc ∧
    Sys2Proof.decode 0b00100011#8 = .error .reservedFunc ∧
    Sys2Proof.decode 0b01011111#8 = .error .reservedFunc ∧
    Sys2Proof.decode 0b01100000#8 = .error .reservedUnit ∧
    Sys2Proof.decode 0b11111111#8 = .error .reservedUnit := by decide

theorem test_decode_table_word :
    decodeTableWord 8 0x22 = some .hdrdec ∧ decodeTableWord 8 0x02 = none := by decide

/-- No two rows of the table fit one word. -/
theorem test_rows_do_not_overlap :
    opTable.Pairwise fun a b => a.pattern &&& (a.mask &&& b.mask) ≠ b.pattern &&& (a.mask &&& b.mask) := by
  decide

/-! ### The commands, with the values of 95_test_vectors.md -/

/-- V-C, CTIDX with `CODE = 2`. -/
theorem test_ctidx_code_2 :
    nextIs (exec .ctidx (coded 2 [])) (fun s => s.n = 15 ∧ s.k = 11 ∧ s.status = 0x80 ∧ s.code = 2) = true := by
  decide

/-- V-C, CTIDX with `CODE = 4`, `N = 9`, `K = 9`. -/
theorem test_ctidx_code_4 :
    nextIs (exec .ctidx { coded 4 [] with n := 9, k := 9 })
      (fun s => s.n = 9 ∧ s.k = 9 ∧ s.status = 0x81 ∧ s.outBuf = [true]) = true := by decide

/-- V-C, CTLEN with `N = 31`. -/
theorem test_ctlen_31 :
    nextIs (exec .ctlen { block [] with n := 31 })
      (fun s => s.code = 3 ∧ s.k = 26 ∧ s.n = 31 ∧ s.status = 0x80) = true := by decide

/-- V-C, CTLEN with `N = 63`, `CODE = 2`: no fallback to the largest code. -/
theorem test_ctlen_no_fallback :
    nextIs (exec .ctlen { coded 2 [] with n := 63 }) (fun s => s.code = 2 ∧ s.status = 0x81) = true := by
  decide

/-- V-E9: twelve ones under code 2, a whole block and a padded one. -/
theorem test_encode_pads :
    outOf (exec .encode (coded 2 (row 12 0b111111111111))) =
      some (row 30 0b111111111111111110010000000000, 0) := by decide +kernel

/-- V-E13: `CODE = 4` empties `OUT`. -/
theorem test_encode_code_4 : outOf (exec .encode (coded 4 [true])) = some ([], 1) := by decide

/-- V-H1. -/
theorem test_hdrbld_fields :
    outOf (exec .hdrbld (sized 5 1)) = some (row 32 0b00000000000001010000000000000001, 0) := by
  decide +kernel

/-- V-H6: both faults, UnsupportedCode first. -/
theorem test_hdrbld_order : outOf (exec .hdrbld (sized 65536 4)) = some ([], 1) := by decide

/-- V-H8, under any `CODE`. -/
theorem test_hdrenc : outOf (exec .hdrenc (coded 9 (row 32 0x00050001))) = some (exampleHeader, 0) := by
  decide +kernel

/-- V-H9. -/
theorem test_hdrenc_31 : refusalOf (exec .hdrenc (block (zeros 31))) = some .headerNot32Bits := by decide

/-- V-H13: header group 29 reads `110`. -/
theorem test_hdrdec_corrupt :
    nextIs (exec .hdrdec { sized 77 9 with
        mem := ⟨flipBit (flipBit exampleHeader 87) 88, [true], none⟩ })
      (fun s => s.status = 0x83 ∧ s.len = 77 ∧ s.code = 9 ∧ s.outBuf = [true]) = true := by decide +kernel

/-- The payload part of the frame of V-S4. -/
def payload51 : Bits := row 14 0b11001101101000

/-- The frame of V-S4. -/
def frame51 : Bits := exampleHeader ++ payload51

/-- V-H17: the bits from 96 on are ignored. -/
theorem test_hdrdec_of_a_frame :
    nextIs (exec .hdrdec (block frame51))
      (fun s => s.status = 0x80 ∧ s.len = 5 ∧ s.code = 1 ∧ s.outBuf = [true]) = true := by decide +kernel

/-- V-S4: the frame of `01101` under code 1. -/
theorem test_frmbld : outOf (exec .frmbld (coded 1 (row 5 0b01101))) = some (frame51, 0) := by
  decide +kernel

/-- V-F3. -/
theorem test_frmbld_code_4 : outOf (exec .frmbld (coded 4 [true])) = some ([], 1) := by decide

/-- V-D12: bit 30 flipped, code 3. -/
theorem test_decode_corrects :
    outOf (exec .decode (coded 3 (row 31 0b0011110000000000000000000000000))) =
      some (row 26 0b10000000000000000000000001, 0) := by decide +kernel

/-- V-D7: six bits do not tile by 7. -/
theorem test_decode_truncated : outOf (exec .decode (coded 1 (row 6 0b110011))) = some ([], 5) := by decide

/-- V-F18: bits 45 and 46 flipped, the header reads `(4, 1)`. -/
theorem test_frmprs_short_length :
    outOf (exec .frmprs (block (flipBit (flipBit frame51 45) 46))) = some (row 4 0b0110, 0) := by
  decide +kernel

/-- V-F12: one block, five bits wanted. -/
theorem test_frmprs_short_payload : outOf (exec .frmprs (block (frame51.take 103))) = some ([], 5) := by
  decide +kernel

/-! ### The step, the host's lines, the written form of a script -/

/-- 10_state.md R45 with the spec's default table. -/
theorem test_reset_state :
    State.reset.status = 0x80 ∧ State.reset.inBuf = [] ∧ State.reset.outBuf = [] ∧ State.reset.code = 0 ∧
      State.reset.n = 0 ∧ State.reset.k = 0 ∧ State.reset.len = 0 := by decide

/-- V-H2, as the first command after reset. -/
theorem test_step_runs_the_fetch_word :
    outOf (step (State.reset.withFetchWord 8 0x20)) = some (zeros 32, 0) := by decide +kernel

/-- Script P3: the word `0x02` is refused. -/
theorem test_step_refuses_a_reserved_word :
    refusalOf (step (State.reset.withFetchWord 8 0x02)) = some (.reservedWord .reservedFunc) := by decide

/-- R92: SELLEN 7 writes `N` and performs CTLEN. -/
theorem test_sellen :
    nextIs (performLine (.selLen 7) (block [])) (fun s => s.n = 7 ∧ s.code = 1 ∧ s.k = 4) = true := by decide

/-- R92: SELIDX 3 writes `CODE` and performs CTIDX. -/
theorem test_selidx :
    nextIs (performLine (.selIdx 3) (block [])) (fun s => s.code = 3 ∧ s.n = 31 ∧ s.k = 26) = true := by decide

/-- Script P4: FLIP 0 of `1100110`. -/
theorem test_flip :
    nextIs (performLine (.flip 0) (block (row 7 0b1100110))) (fun s => s.inBuf = row 7 0b0100110) = true := by
  decide

theorem test_loopback :
    nextIs (performLine .loopback (block [])) (fun s => s.inBuf = [true] ∧ s.outBuf = [true]) = true := by
  decide

theorem test_expect :
    nextIs (performLine (.expectFault (.raised .frameTruncated)) { block [] with status := 0x85 })
      (fun s => s.expectsHeld) = true ∧
    nextIs (performLine (.expectReg .status 0x80) { block [] with status := 0x85 })
      (fun s => !s.expectsHeld && s.status == 0x85) = true := by decide

theorem test_over_capacity :
    refusalOf (performLine (.setIn (zeros 4)) (capped (block []) 3)) = some .overCapacity ∧
    refusalOf (exec .encode (capped (coded 1 [true]) 6)) = some .overCapacity ∧
    outOf (exec .encode (capped (coded 1 [true]) 7)) = some (row 7 0b1101000, 0) := by decide +kernel

/-- The syntax of 30_encoding.md R90 to R92, with lines of script P1. -/
theorem test_parse_script :
    parseScript "N <- 7 ; select\nCTLEN\n\n  FRMBLD\nLOOPBACK\nFLIP 100\nEXPECT STATUS = 0x80\nEXPECT FAULT = OK" =
      some [.setN 7, .command 0x01, .command 0x30, .loopback, .flip 100, .expectReg .status 0x80,
        .expectFault .ok] ∧
    parseScript "IN <- \"01101\"\nEXPECT OUT = \"\"" =
      some [.setIn (row 5 0b01101), .expectOut []] := by decide +kernel

/-- No operand after a mnemonic, no value wider than its register, no unknown word. -/
theorem test_parse_rejects :
    parseScript "ENCODE 1" = none ∧ parseScript "CODE <- 65536" = none ∧ parseScript "STATUS <- 0" = none ∧
      parseScript "NOP" = none := by decide +kernel

/-! ### Witnesses: states that meet the hypotheses of the statements, at the ends of their ranges -/

theorem witness_ResetLeavesTheValuesOfTheSpec :
    (State.resetWith refTable (some 0)).ready = true ∧ (State.resetWith badTable none).ready = false ∧
    ((coded 3 [true]).applyReset badTable).ready = false := by
  have h : ∀ b, Status.ready (Status.atReset b) = b := by decide
  exact ⟨(h _).trans refTable_valid, (h _).trans smoke_bad_table_is_not_valid,
    (h _).trans smoke_bad_table_is_not_valid⟩

theorem witness_LookupsAreExactAndInverse :
    Code.byIndex 3 = some .hamming31_26 ∧ Code.byIndex 4 = none ∧ Code.byLength 31 = some .hamming31_26 ∧
      Code.byLength 32 = none ∧ Code.byLength 0 = none := by decide

theorem witness_ValidTablesAreThoseOfTheSpec : refTable.valid = true ∧ badTable.valid = false :=
  ⟨refTable_valid, smoke_bad_table_is_not_valid⟩

theorem witness_DecodeAndEncodeAgree :
    Instr.frmprs.wf = true ∧ Sys2Proof.decode 0x50 = .ok .frmprs ∧ (fieldsOf 0x50).wf = true ∧
      (fieldsOf 0x51).wf = false := by decide

theorem witness_StepPerformsTheDecodedCommand :
    ((block []).withFetchWord 8 0x21).script = .command 0x21 :: [] ∧
      Sys2Proof.decode 0x21 = .ok .hdrenc := by decide

theorem witness_ReservedWordsAreRefused :
    (0x51#8) ∉ [0x00#8, 0x01, 0x10, 0x20, 0x21, 0x22, 0x30, 0x40, 0x50] ∧
      ((block []).withScript [.command 0x51]).script = .command 0x51 :: [] := by decide

theorem witness_IdleBlockKeepsItsState : State.reset.script = [] := rfl

/-- A state with all of the invariant, at the capacity and with the largest fault code, whose next step
is a next state. -/
theorem witness_EveryStepKeepsTheInvariant :
    ∃ s s' : State, s.Inv ∧ step s = .next s' ∧ s'.fault = 5 := by
  refine ⟨{ capped (coded 1 (zeros 6)) 6 with script := [.command 0x40], status := 0x85 }, ?_⟩
  obtain ⟨s', h, hp⟩ := exists_next
    (r := step { capped (coded 1 (zeros 6)) 6 with script := [.command 0x40], status := 0x85 })
    (p := fun s => s.fault = 5) (by decide +kernel)
  exact ⟨s', ⟨by decide, refTable_valid.symm, by decide, by decide⟩, h, of_decide_eq_true hp⟩

theorem witness_TableCapacityAndReadyNeverChange :
    ∃ s s' : State, step s = .next s' ∧ s'.status = 0x80 ∧ s.script ≠ [] := by
  obtain ⟨s', h, hp⟩ := exists_next (r := step ((block []).withScript [.command 0x10]))
    (p := fun s => s.status = 0x80) (by decide +kernel)
  exact ⟨_, s', h, of_decide_eq_true hp, by decide⟩

/-- A block that is not ready, and a host line that it still completes. -/
theorem witness_NotReadyRefusesEveryCommandForGood :
    badTable.valid = false ∧
      ∃ s s' : State, s.ready = false ∧ step s = .next s' := by
  refine ⟨smoke_bad_table_is_not_valid, ?_⟩
  obtain ⟨s', h, -⟩ := exists_next
    (r := step { block [] with status := 0x00, script := [.setCode 1] }) (p := fun _ => true) (by decide)
  exact ⟨_, s', by decide, h⟩

/-- Two states that agree on the read set of HDRBLD and differ elsewhere; a next state with FAULT = 0
and one with FAULT = 2; and a refusal. -/
theorem witness_CommandsHaveTheirReadAndWriteSets :
    SameReads .hdrbld (sized 5 1) { sized 5 1 with n := 9, mem := ⟨[true], [], none⟩ } ∧
    (∃ s', exec .hdrbld (sized 5 1) = .next s' ∧ s'.fault = 0) ∧
    (∃ s', exec .hdrbld (sized 65536 1) = .next s' ∧ s'.fault.toNat ≠ 0) ∧
    exec .hdrenc (block (zeros 31)) = .refused .headerNot32Bits ∧
    SameReads .hdrenc (block (zeros 31)) (coded 2 (zeros 31)) := by
  refine ⟨⟨rfl, rfl, rfl, rfl⟩, ?_, ?_, refused_of (by decide), ⟨rfl, rfl, rfl, rfl⟩⟩
  · obtain ⟨s', h, hp⟩ := exists_next (r := exec .hdrbld (sized 5 1)) (p := fun s => s.fault = 0) (by decide +kernel)
    exact ⟨s', h, of_decide_eq_true hp⟩
  · obtain ⟨s', h, hp⟩ := exists_next (r := exec .hdrbld (sized 65536 1))
      (p := fun s => s.fault.toNat ≠ 0) (by decide +kernel)
    exact ⟨s', h, of_decide_eq_true hp⟩

theorem witness_FaultEntryWritesFaultAndEmptiesOut :
    ∃ s', exec .encode (coded 4 [true]) = .next s' ∧ s'.fault ≠ 0 := by
  obtain ⟨s', h, hp⟩ := exists_next (r := exec .encode (coded 4 [true])) (p := fun s => s.fault ≠ 0) (by decide)
  exact ⟨s', h, of_decide_eq_true hp⟩

theorem witness_CommandsAreIdempotent :
    (∃ s', exec .ctlen { block [] with n := 31 } = .next s') ∧ ∃ s', exec .hdrdec (block (zeros 95)) = .next s' := by
  constructor
  · obtain ⟨s', h, -⟩ := exists_next (r := exec .ctlen { block [] with n := 31 }) (p := fun _ => true) (by decide)
    exact ⟨s', h⟩
  · obtain ⟨s', h, -⟩ := exists_next (r := exec .hdrdec (block (zeros 95))) (p := fun _ => true) (by decide)
    exact ⟨s', h⟩

/-- Each of the cases of R207 happens. -/
theorem witness_RefusalsAreThoseOfTheSpec :
    exec .ctidx { block [] with status := 0x00 } = .refused .notReady ∧
    exec .hdrenc (block (zeros 33)) = .refused .headerNot32Bits ∧
    exec .encode (capped (coded 1 [true]) 6) = .refused .overCapacity ∧
    (∀ i, Sys2Proof.decode 0x02 ≠ .ok i) ∧
    performLine (.setIn (zeros 4)) (capped (block []) 3) = .refused .overCapacity ∧
    performLine .loopback (capped (block []) 0) = .refused .overCapacity ∧
    performLine (.flip 0) (capped (block (zeros 4)) 3) = .refused .overCapacity :=
  ⟨refused_of (by decide), refused_of (by decide), refused_of (by decide +kernel),
    fun i => by cases i <;> decide, refused_of (by decide), refused_of (by decide), refused_of (by decide)⟩

/-- A next state for each of the two clauses, `CODE` at 3 and 4. -/
theorem witness_UnsupportedCodeExactly :
    outOf (exec .hdrbld (sized 0 4)) = some ([], 1) ∧ outOf (exec .hdrbld (sized 0 3)) ≠ some ([], 1) ∧
    nextIs (exec .ctlen { block [] with n := 32 }) (fun s => s.fault = 1) = true := by decide +kernel

/-- `LEN` at 65535 and 65536. For FRMBLD see `witness_FrmbldWritesHeaderThenPayload`. -/
theorem witness_ValueOutOfRangeExactly :
    outOf (exec .hdrbld (sized 65536 3)) = some ([], 2) ∧
      nextIs (exec .hdrbld (sized 65535 3)) (fun s => s.fault = 0) = true ∧
      outOf (exec .hdrbld (sized 4294967295 0)) = some ([], 2) := by decide +kernel

/-- The decoded index at 4 (42_header_codec.md R146, the last row) and at 3. -/
theorem witness_HeaderCorruptExactly :
    nextIs (exec .hdrdec (block (zeros 87 ++ [true, true, false] ++ zeros 6))) (fun s => s.fault = 3) = true ∧
    nextIs (exec .hdrdec (block (zeros 90 ++ [true, true, false, true, true, false])))
      (fun s => s.fault = 0 ∧ s.code = 3) = true ∧
    outOf (exec .frmprs (block (List.replicate 96 true))) = some ([], 3) := by decide +kernel

/-- A fault of each clause, and `IN` of 95 and of 96 bits. -/
theorem witness_FrameTruncatedExactly :
    outOf (exec .frmprs (block (zeros 95))) = some ([], 5) ∧
    outOf (exec .frmprs (block (zeros 96))) = some ([], 0) ∧
    outOf (exec .decode (coded 0 [true, true])) = some ([], 5) ∧
    outOf (exec .frmprs (block (zeros 96 ++ [true, true]))) = some ([], 5) ∧
    outOf (exec .frmprs (block (frame51.take 103))) = some ([], 5) := by decide +kernel

/-- A table that is not valid, in a state that no reset leaves; a block that no column matches, and one
that a column matches. -/
theorem witness_UncorrectableBlockExactly :
    let s := fun v => { block v with ct := badTable }
    (s (row 3 0b110)).ready = true ∧ (s (row 3 0b110)).code.toNat = Code.repetition3_1.index ∧
      (s (row 3 0b110)).inBuf.length % Code.repetition3_1.n = 0 ∧
      outOf (exec .decode (s (row 3 0b110))) = some ([], 4) ∧
      outOf (exec .decode (s (row 3 0b100))) = some ([false], 0) := by decide +kernel

theorem witness_CtidxWritesLengthAndDataBits :
    (coded 0 []).ready = true ∧ (0, 3, 1) ∈ params ∧ (3, 31, 26) ∈ params ∧ (coded 0 []).code.toNat = 0 ∧
      (coded 3 []).code.toNat = 3 ∧ 3 < (coded 4 []).code.toNat := by decide

theorem witness_CtlenWritesIndexAndDataBits :
    ({ block [] with n := 31 } : State).ready = true ∧ (3, 31, 26) ∈ params ∧
      ({ block [] with n := 31 } : State).n.toNat = 31 ∧
      ∀ row ∈ params, ({ block [] with n := 32 } : State).n.toNat ≠ row.2.1 := by decide

theorem witness_LookupCommandsAreInverse :
    (∃ s₁, exec .ctidx (coded 3 []) = .next s₁ ∧ s₁.fault = 0) ∧
      ∃ s₁, exec .ctlen { block [] with n := 3 } = .next s₁ ∧ s₁.fault = 0 := by
  constructor
  · obtain ⟨s', h, hp⟩ := exists_next (r := exec .ctidx (coded 3 [])) (p := fun s => s.fault = 0) (by decide)
    exact ⟨s', h, of_decide_eq_true hp⟩
  · obtain ⟨s', h, hp⟩ := exists_next (r := exec .ctlen { block [] with n := 3 }) (p := fun s => s.fault = 0)
      (by decide)
    exact ⟨s', h, of_decide_eq_true hp⟩

/-- A capacity of exactly the 14 bits of the result; `CODE` at 3 and 4. -/
theorem witness_EncodeWritesTheCodewords :
    (capped (coded 1 (zeros 5)) 14).ready = true ∧
    (capped (coded 1 (zeros 5)) 14).code.toNat = Code.hamming7_4.index ∧
    Fits (capped (coded 1 (zeros 5)) 14) (Code.hamming7_4.n * ceilDiv 5 Code.hamming7_4.k) ∧
    (coded 3 []).code.toNat = Code.hamming31_26.index ∧ 3 < (coded 4 []).code.toNat :=
  ⟨by decide, by decide, fits_finite rfl (by decide), by decide, by decide⟩

/-- A last block of one data bit: block 1 and position 6 are the last ones. -/
theorem witness_EncodeComputesEveryCodewordBit :
    (coded 1 (zeros 5)).ready = true ∧ (coded 1 (zeros 5)).code.toNat = Code.hamming7_4.index ∧
    Fits (coded 1 (zeros 5)) (Code.hamming7_4.n * ceilDiv 5 Code.hamming7_4.k) ∧
    1 < ceilDiv (coded 1 (zeros 5)).inBuf.length Code.hamming7_4.k ∧ 6 < Code.hamming7_4.n :=
  ⟨by decide, by decide, fits_infinite rfl _, by decide, by decide⟩

theorem witness_PaddingIsTheSpecs :
    (zeros 26).length % Code.hamming31_26.k = 0 ∧ (zeros 27).length % Code.hamming31_26.k ≠ 0 := by decide

theorem witness_EncodeIsLinear : (row 5 0b01101).length = (row 5 0b11100).length := by decide

theorem witness_EncodeKeepsTheDataBits :
    (coded 3 [true]).Usable ∧ (coded 3 [true]).code.toNat = Code.hamming31_26.index ∧
    (∃ s', exec .encode (coded 3 [true]) = .next s') ∧
    0 < ceilDiv (coded 3 [true]).inBuf.length Code.hamming31_26.k ∧ 25 < Code.hamming31_26.k := by
  obtain ⟨s', h, -⟩ := exists_next (r := exec .encode (coded 3 [true])) (p := fun _ => true) (by decide +kernel)
  exact ⟨usable_coded _ _, by decide, ⟨s', h⟩, by decide, by decide⟩

theorem witness_HdrbldWritesBothFields :
    (sized 65535 3).ready = true ∧ (sized 65535 3).code.toNat ≤ 3 ∧ (sized 65535 3).len.toNat ≤ 65535 ∧
    Fits (capped (sized 65535 3) 32) 32 ∧ 65535 < (sized 65536 3).len.toNat ∧ (sized 65536 3).code.toNat ≤ 3 ∧
    3 < (sized 65535 4).code.toNat :=
  ⟨by decide, by decide, by decide, fits_finite rfl le_rfl, by decide, by decide, by decide⟩

theorem witness_HdrencEncodesThirtyTwoBits :
    (block (zeros 32)).ready = true ∧ (block (zeros 32)).inBuf.length = 32 ∧
    Fits (capped (block (zeros 32)) 96) 96 ∧ (block (zeros 31)).inBuf.length ≠ 32 ∧
    (block (zeros 33)).inBuf.length ≠ 32 :=
  ⟨by decide, by decide, fits_finite rfl le_rfl, by decide, by decide⟩

theorem witness_HdrencTriplesEveryHeaderBit :
    (block (zeros 32)).Usable ∧ (block (zeros 32)).inBuf.length = 32 ∧ Fits (block (zeros 32)) 96 :=
  ⟨usable_block _, by decide, fits_infinite rfl _⟩

/-- `IN` of 95 and of 96 bits; a header that decodes, one that is corrupt, and, under a table that is
not valid, one whose block no column matches. -/
theorem witness_HdrdecWritesLengthAndIndex :
    (block (zeros 95)).ready = true ∧ (block (zeros 95)).inBuf.length < 96 ∧
    96 ≤ (block exampleHeader).inBuf.length ∧
    HeaderCodec.decodeHeader refTable (slice exampleHeader 0 96) = .ok (5, .hamming7_4) ∧
    HeaderCodec.decodeHeader refTable (slice (List.replicate 96 true) 0 96) = .error .headerCorrupt ∧
    HeaderCodec.decodeHeader badTable (slice (row 3 0b110 ++ zeros 93) 0 96) = .error .uncorrectableBlock ∧
    (block (flipBit exampleHeader 95)).Usable :=
  ⟨by decide, by decide, by decide, by decide +kernel, by decide +kernel, by decide +kernel, usable_block _⟩

theorem witness_HdrdecDecodesByMajority :
    (block exampleHeader).Usable ∧ 96 ≤ (block exampleHeader).inBuf.length ∧ headerField exampleHeader 16 ≤ 3 ∧
    headerField (zeros 90 ++ [true, true, false, true, true, false]) 16 = 3 ∧
    headerField (zeros 87 ++ [true, true, false] ++ zeros 6) 16 = 4 :=
  ⟨usable_block _, by decide, by decide +kernel, by decide +kernel, by decide +kernel⟩

theorem witness_HeaderRecoversItsParameters :
    (sized 65535 3).Usable ∧ (sized 65535 3).len.toNat ≤ 65535 ∧ (sized 65535 3).code.toNat ≤ 3 ∧
    Fits (capped (sized 65535 3) 96) 96 :=
  ⟨⟨ready_80 rfl, refTable_valid⟩, by decide, by decide, fits_finite rfl le_rfl⟩

/-- `|IN|` at 65535 and at 65536, a capacity of exactly the frame, and the example. -/
theorem witness_FrmbldWritesHeaderThenPayload :
    (coded 3 (zeros 65535)).ready = true ∧ (coded 3 (zeros 65535)).code.toNat = Code.hamming31_26.index ∧
    (coded 3 (zeros 65535)).inBuf.length ≤ 65535 ∧ 65535 < (coded 3 (zeros 65536)).inBuf.length ∧
    Fits (capped (coded 3 (zeros 65535)) 78247) (96 + Code.hamming31_26.n * ceilDiv 65535 Code.hamming31_26.k) ∧
    3 < (coded 4 []).code.toNat ∧
    (coded 0 [true]).Usable ∧ (coded 0 [true]).code = 0 ∧ Fits (capped (coded 0 [true]) 99) 99 ∧
    (coded 1 (row 5 0b01101)).ct = refTable ∧ Fits (capped (coded 1 (row 5 0b01101)) 110) 110 := by
  refine ⟨ready_80 rfl, by decide, ?_, ?_, fits_finite rfl (by decide), by decide, usable_coded _ _, by decide,
    fits_finite rfl le_rfl, rfl, fits_finite rfl le_rfl⟩
  · exact (zeros_length 65535).le
  · exact lt_of_lt_of_eq (by decide : 65535 < 65536) (zeros_length 65536).symm

theorem witness_FrameLayoutIsTheWireFormat :
    (coded 1 (zeros 5)).Usable ∧ (coded 1 (zeros 5)).code.toNat = Code.hamming7_4.index ∧
    (coded 1 (zeros 5)).inBuf.length ≤ 65535 ∧
    Fits (capped (coded 1 (zeros 5)) 110) (96 + Code.hamming7_4.n * ceilDiv 5 Code.hamming7_4.k) ∧
    1 < ceilDiv (coded 1 (zeros 5)).inBuf.length Code.hamming7_4.k :=
  ⟨usable_coded _ _, by decide, by decide, fits_finite rfl (by decide), by decide⟩

theorem witness_FrmbldEqualsItsParts :
    (coded 3 [true]).ready = true ∧ (coded 3 [true]).code.toNat ≤ 3 ∧ (coded 3 [true]).inBuf.length ≤ 65535 ∧
    (coded 3 [true]).mem.cap = none := by decide

/-- A codeword; a codeword with bit 6 flipped; and a block that no column of a table matches. -/
theorem witness_DecBlockPutsTheFourStepsTogether :
    (row 7 0b1100110).length = Code.hamming7_4.n ∧
    syndromeOf refTable .hamming7_4 (row 7 0b1100110) = zeros Code.hamming7_4.r ∧
    syndromeOf refTable .hamming7_4 (row 7 0b1100111) ≠ zeros Code.hamming7_4.r ∧
    (refTable.par .hamming7_4).col Code.hamming7_4.r 6 = syndromeOf refTable .hamming7_4 (row 7 0b1100111) ∧
    (∀ q, q < 6 → (refTable.par .hamming7_4).col Code.hamming7_4.r q ≠
      syndromeOf refTable .hamming7_4 (row 7 0b1100111)) ∧
    (row 3 0b110).length = Code.repetition3_1.n ∧
    syndromeOf badTable .repetition3_1 (row 3 0b110) ≠ zeros Code.repetition3_1.r ∧
    ∀ p, p < Code.repetition3_1.n → (badTable.par .repetition3_1).col Code.repetition3_1.r p ≠
      syndromeOf badTable .repetition3_1 (row 3 0b110) := by decide +kernel

theorem witness_DecodeWritesTheDecodedBlocks :
    (coded 1 payload51).ready = true ∧ (coded 1 payload51).code.toNat = Code.hamming7_4.index ∧
    (coded 1 (zeros 8)).inBuf.length % Code.hamming7_4.n ≠ 0 ∧
    Decoder.decode refTable .hamming7_4 (zeros 6) = .error .frameTruncated ∧
    Decoder.decode badTable .repetition3_1 (row 3 0b110) = .error .uncorrectableBlock ∧
    Decoder.decode refTable .hamming7_4 payload51 = .ok (row 8 0b01101000) ∧
    Fits (capped (coded 1 payload51) 8) (row 8 0b01101000).length ∧ 3 < (coded 4 []).code.toNat ∧
    refTable.valid = true :=
  ⟨by decide, by decide, by decide, by decide +kernel, by decide +kernel, by decide +kernel,
    fits_finite rfl (by decide), by decide, refTable_valid⟩

/-- Bit 0 of block 0 and bit 13, the last of block 1, are flipped; the data differ from a second
sequence of the same length. -/
theorem witness_DecodeFindsTheNearestCodewords :
    (coded 1 (flipBit (flipBit payload51 0) 13)).Usable ∧
    (coded 1 (flipBit (flipBit payload51 0) 13)).code.toNat = Code.hamming7_4.index ∧
    (coded 1 (flipBit (flipBit payload51 0) 13)).inBuf.length % Code.hamming7_4.n = 0 ∧
    Fits (coded 1 (flipBit (flipBit payload51 0) 13)) (Code.hamming7_4.k * (14 / Code.hamming7_4.n)) ∧
    OneFlipPer (Encoder.encode refTable .hamming7_4 (row 8 0b01101000))
      (flipBit (flipBit payload51 0) 13) 0 Code.hamming7_4.n (14 / Code.hamming7_4.n) :=
  ⟨usable_coded _ _, by decide, by decide, fits_infinite rfl _, by decide +kernel⟩

theorem witness_DecodeCorrectsOneErrorPerCodeword :
    (coded 1 (flipBit (flipBit payload51 0) 13)).Usable ∧
    (coded 1 (flipBit (flipBit payload51 0) 13)).code.toNat = Code.hamming7_4.index ∧
    (coded 1 (flipBit (flipBit payload51 0) 13)).inBuf.length =
      Code.hamming7_4.n * ceilDiv (row 5 0b01101).length Code.hamming7_4.k ∧
    OneFlipPer (Encoder.encode refTable .hamming7_4 (row 5 0b01101))
      (flipBit (flipBit payload51 0) 13) 0 Code.hamming7_4.n (ceilDiv (row 5 0b01101).length Code.hamming7_4.k) ∧
    Fits (capped (coded 1 payload51) 8) (Code.hamming7_4.k * ceilDiv (row 5 0b01101).length Code.hamming7_4.k) :=
  ⟨usable_coded _ _, by decide, by decide, by decide +kernel, fits_finite rfl (by decide)⟩

theorem witness_RepetitionCodeDecodesByMajority :
    (coded 0 (row 6 0b110001)).Usable ∧ (coded 0 (row 6 0b110001)).code = 0 ∧
    (coded 0 (row 6 0b110001)).inBuf.length = 3 * 2 ∧ Fits (coded 0 (row 6 0b110001)) 2 :=
  ⟨usable_coded _ _, by decide, by decide, fits_infinite rfl _⟩

/-- V-D6: `0110` sent as `1100110`, bits 0 and 3 flipped. -/
theorem witness_TwoErrorsDecodeToWrongData :
    (coded 1 (row 7 0b0101110)).Usable ∧ (coded 1 (row 7 0b0101110)).code.toNat = Code.hamming7_4.index ∧
    (row 4 0b0110).length = Code.hamming7_4.k ∧ (coded 1 (row 7 0b0101110)).inBuf.length = Code.hamming7_4.n ∧
    differences (Encoder.encBlock refTable .hamming7_4 (row 4 0b0110)) (row 7 0b0101110) 0 Code.hamming7_4.n = 2 ∧
    Fits (coded 1 (row 7 0b0101110)) Code.hamming7_4.k :=
  ⟨usable_coded _ _, by decide, by decide, by decide, by decide +kernel, fits_infinite rfl _⟩

theorem witness_UncorrectableBlockNeverHappensUnderAValidTable :
    (coded 1 (row 7 0b0101110)).ct.valid = true ∧ ∃ s', exec .decode (coded 1 (row 7 0b0101110)) = .next s' := by
  obtain ⟨s', h, -⟩ := exists_next (r := exec .decode (coded 1 (row 7 0b0101110))) (p := fun _ => true)
    (by decide +kernel)
  exact ⟨refTable_valid, s', h⟩

/-- A second valid table with the same generator matrices: row 0 of `H(0)` replaced by the sum of both
rows. -/
theorem witness_CommandsDoNotDependOnTheParityMatrix :
    let ct : CodeTable := { refTable with entry0 := ⟨refGen .repetition3_1, [row 3 0b110, row 3 0b011]⟩ }
    ct ≠ refTable ∧ ct.valid = true ∧ ∀ c ∈ Code.all, ct.gen c = refTable.gen c := by decide +kernel

theorem witness_EveryNonzeroSyndromeIsOneColumn :
    refTable.valid = true ∧ (row 5 0b11111).length = Code.hamming31_26.r ∧
      row 5 0b11111 ≠ zeros Code.hamming31_26.r := ⟨refTable_valid, by decide, by decide⟩

/-- A codeword and a block that is none. -/
theorem witness_SyndromeIsZeroExactlyOnCodewords :
    refTable.valid = true ∧ (row 7 0b1100110).length = Code.hamming7_4.n ∧
    Decoder.syndrome refTable .hamming7_4 (row 7 0b1100110) = zeros Code.hamming7_4.r ∧
    Decoder.syndrome refTable .hamming7_4 (row 7 0b1100111) ≠ zeros Code.hamming7_4.r :=
  ⟨refTable_valid, by decide, by decide +kernel, by decide +kernel⟩

theorem witness_ValidityForcesTheRepetitionCode : refTable.valid = true := refTable_valid

/-- One state for each line of R181, and the example. -/
theorem witness_FrmprsFollowsItsChecks :
    (block (zeros 95)).inBuf.length < 96 ∧ 96 ≤ (block (zeros 96)).inBuf.length ∧
    HeaderCodec.decodeHeader refTable (slice (List.replicate 96 true) 0 96) = .error .headerCorrupt ∧
    HeaderCodec.decodeHeader refTable (slice frame51 0 96) = .ok (5, .hamming7_4) ∧
    Decoder.decode refTable .hamming7_4 (slice (frame51 ++ [true]) 96 111) = .error .frameTruncated ∧
    Decoder.decode refTable .hamming7_4 (slice (frame51.take 103) 96 103) = .ok (row 4 0b0110) ∧
    Decoder.decode refTable .hamming7_4 (slice frame51 96 110) = .ok (row 8 0b01101000) ∧
    Fits (capped (block frame51) 5) 5 ∧
    (block (zeros 45 ++ [true, true, true] ++ zeros 48 ++ [true, false, true])).Usable :=
  ⟨by decide, by decide, by decide +kernel, by decide +kernel, by decide +kernel, by decide +kernel,
    by decide +kernel, fits_finite rfl le_rfl, usable_block _⟩

/-- A state for each clause: an index of 4; a payload that does not tile; 4 decoded bits of 5; 8 of 5. -/
theorem witness_FrmprsOnEveryFrame :
    (block frame51).Usable ∧ 96 ≤ (block frame51).inBuf.length ∧
    3 < headerField (zeros 87 ++ [true, true, false] ++ zeros 6) 16 ∧
    headerField frame51 16 = Code.hamming7_4.index ∧ headerField frame51 0 = 5 ∧
    (111 - 96) % Code.hamming7_4.n ≠ 0 ∧ (103 - 96) % Code.hamming7_4.n = 0 ∧
    Code.hamming7_4.k * ((103 - 96) / Code.hamming7_4.n) < 5 ∧ (110 - 96) % Code.hamming7_4.n = 0 ∧
    5 ≤ Code.hamming7_4.k * ((110 - 96) / Code.hamming7_4.n) ∧ Fits (capped (block frame51) 5) 5 :=
  ⟨usable_block _, by decide, by decide +kernel, by decide +kernel, by decide +kernel, by decide, by decide,
    by decide, by decide, by decide, fits_finite rfl le_rfl⟩

/-- The frame of `01101` under code 1, with a flip in a header group and one in each codeword. -/
theorem witness_FrameRoundTripUnderOneFlipPerBlock :
    (coded 1 (row 5 0b01101)).Usable ∧ (coded 1 (row 5 0b01101)).code.toNat = Code.hamming7_4.index ∧
    (coded 1 (row 5 0b01101)).inBuf.length ≤ 65535 ∧
    Fits (coded 1 (row 5 0b01101)) (96 + Code.hamming7_4.n * ceilDiv 5 Code.hamming7_4.k) ∧
    (∃ s₁, exec .frmbld (coded 1 (row 5 0b01101)) = .next s₁ ∧ s₁.outBuf = frame51) ∧
    (block (flipBit (flipBit (flipBit frame51 95) 96) 109)).Usable ∧
    (block (flipBit (flipBit (flipBit frame51 95) 96) 109)).ct = (coded 1 (row 5 0b01101)).ct ∧
    Fits (block (flipBit (flipBit (flipBit frame51 95) 96) 109)) 5 ∧
    (flipBit (flipBit (flipBit frame51 95) 96) 109).length = frame51.length ∧
    OneFlipPer frame51 (flipBit (flipBit (flipBit frame51 95) 96) 109) 0 3 32 ∧
    OneFlipPer frame51 (flipBit (flipBit (flipBit frame51 95) 96) 109) 96 Code.hamming7_4.n
      (ceilDiv 5 Code.hamming7_4.k) := by
  obtain ⟨s', h, hp⟩ := exists_next (r := exec .frmbld (coded 1 (row 5 0b01101)))
    (p := fun s => s.outBuf = frame51) (by decide +kernel)
  exact ⟨usable_coded _ _, by decide, by decide, fits_infinite rfl _, ⟨s', h, of_decide_eq_true hp⟩,
    usable_block _, rfl, fits_infinite rfl _, by decide, by decide +kernel, by decide +kernel⟩

theorem witness_HostActionsWriteAndCompare : Fits (capped (block []) 5) (zeros 5).length :=
  fits_finite rfl (by decide)

/-- FLIP of the last bit of a full buffer. -/
theorem witness_PseudoLinesDoTheirExpansion :
    Fits (capped (block []) 1) (capped (block []) 1).outBuf.length ∧ 4 < (capped (block (zeros 5)) 5).inBuf.length ∧
    Fits (capped (block (zeros 5)) 5) (capped (block (zeros 5)) 5).inBuf.length :=
  ⟨fits_finite rfl (by decide), by decide, fits_finite rfl (by decide)⟩

/-- FLIP with `p` at `|IN|` and one below it. -/
theorem witness_OnlyFlipOutsideInStopsTheModel :
    step ((block (zeros 5)).withScript [.flip 5]) = .fault .flipOutOfRange ∧
      ∃ s', step ((block (zeros 5)).withScript [.flip 4]) = .next s' := ⟨rfl, _, rfl⟩

theorem witness_HostWritesNeitherOutNorStatusNorTable :
    (∀ w, Line.loopback ≠ .command w) ∧ (∀ n, Line.loopback ≠ .selLen n) ∧ (∀ c, Line.loopback ≠ .selIdx c) ∧
      ∃ s', performLine .loopback (block []) = .next s' := by
  refine ⟨fun w => by simp, fun n => by simp, fun c => by simp, _, rfl⟩

theorem witness_EveryLineAdvancesTheScriptByOne :
    ((block []).withScript [.setK 7]).script = .setK 7 :: [] ∧
      ∃ s', step ((block []).withScript [.setK 7]) = .next s' := ⟨rfl, _, rfl⟩

end Sys2Proof.Tests
end

/-! SUPPORT. The statements of 10_state.md: what reset leaves (R45), and the read set, the write set and
the faults of every command (R33), with the lemmas they rest on. -/

namespace Sys2Proof.Machine

open Sys2Proof.Claim

/-! ### The status register -/

@[simp] theorem Status.ready_atReset (b : Bool) : Status.ready (Status.atReset b) = b := by
  cases b <;> decide

@[simp] theorem Status.reserved_atReset (b : Bool) : Status.reserved (Status.atReset b) = 0 := by
  cases b <;> decide

@[simp] theorem Status.fault_atReset (b : Bool) : Status.fault (Status.atReset b) = 0 := by
  cases b <;> decide

/-- READY and the reserved bits survive a write of the fault field. -/
@[simp] theorem Status.upper_withFault (st : Byte) (f : BitVec 3) :
    (Status.withFault st f).extractLsb' 3 5 = st.extractLsb' 3 5 := by
  revert st f; decide +kernel

/-! ### Reset -/

/-- Settles O1: a reset at start and a reset of a running block leave the same fields of the block. -/
theorem resetLeavesTheValuesOfTheSpec : Obligations.ResetLeavesTheValuesOfTheSpec := by
  rintro ct cap s (rfl | ⟨s₀, rfl⟩) <;>
    exact ⟨rfl, rfl, rfl, rfl, rfl, rfl, Status.fault_atReset ct.valid, Status.reserved_atReset ct.valid,
      Status.ready_atReset ct.valid, rfl⟩

/-! ### The faults of the parts of a command -/

theorem State.headerRegion_eq_error {s : State} {f : RaisedFault} :
    s.headerRegion = .error f ↔ f = .frameTruncated ∧ s.inBuf.length < 96 := by
  unfold State.headerRegion Config.hdrRegion
  split <;> simp [*, eq_comm]

/-- The two checks of `build_header`, the code index first (42_header_codec.md R137). -/
theorem HeaderCodec.buildHeader_eq_error {len code : Nat} {f : RaisedFault} :
    HeaderCodec.buildHeader len code = .error f ↔
      (f = .unsupportedCode ∧ 3 < code) ∨ (f = .valueOutOfRange ∧ code ≤ 3 ∧ 65535 < len) := by
  unfold HeaderCodec.buildHeader Config.maxPayload
  split
  · simp [*, eq_comm]
  · have hc : code ≤ 3 := by omega
    split <;> simp [*, eq_comm]

/-- The block decoder's fault, or HeaderCorrupt after it (42_header_codec.md R141). -/
theorem HeaderCodec.decodeHeader_eq_error {t : CodeTable} {e : Bits} {f : RaisedFault} :
    HeaderCodec.decodeHeader t e = .error f ↔ Decoder.decode t hdrCode e = .error f ∨
      ∃ h, Decoder.decode t hdrCode e = .ok h ∧ f = .headerCorrupt ∧ 3 < val (slice h 16 32) := by
  unfold HeaderCodec.decodeHeader
  rw [Except.bind_eq_error]
  refine or_congr_right (exists_congr fun h => and_congr_right fun _ => ?_)
  rw [← Code.byIndex_eq_none]
  split <;> simp [*, eq_comm]

theorem FrameParser.cut_eq_error {len : Nat} {d : Bits} {f : RaisedFault} :
    FrameParser.cut len d = .error f ↔ f = .frameTruncated ∧ d.length < len := by
  unfold FrameParser.cut
  split <;> simp [*, eq_comm]

/-- The header of a frame is built for a code that exists, so its length is its only fault. -/
theorem FrameAssembler.buildFrame_eq_error {t : CodeTable} {c : Code} {d : Bits} {f : RaisedFault} :
    FrameAssembler.buildFrame t c d = .error f ↔ f = .valueOutOfRange ∧ 65535 < d.length := by
  have hc := c.index_le
  simp only [FrameAssembler.buildFrame, Except.bind_eq_error, HeaderCodec.buildHeader_eq_error]
  simp [pure, Except.pure, hc, Nat.not_lt.mpr hc]

/-! ### The faults of a command -/

/-- Every fault that `x` can end with has its code in `l`. -/
def FaultsIn {α : Type} (l : List Nat) (x : Except RaisedFault α) : Prop :=
  ∀ f, x = .error f → f.number.toNat ∈ l

theorem FaultsIn.ok {α : Type} {l : List Nat} (a : α) : FaultsIn l (.ok a) := fun _ h => by cases h

theorem FaultsIn.bind {α β : Type} {l : List Nat} {x : Except RaisedFault α} {g : α → Except RaisedFault β}
    (hx : FaultsIn l x) (hg : ∀ a, FaultsIn l (g a)) : FaultsIn l (x >>= g) := fun f h => by
  obtain h | ⟨a, -, h⟩ := Except.bind_eq_error.mp h
  · exact hx f h
  · exact hg a f h

theorem State.codeOperand_faultsIn {l : List Nat} {s : State} (h₁ : 1 ∈ l) : FaultsIn l s.codeOperand :=
  fun f h => by obtain ⟨rfl, -⟩ := State.codeOperand_eq_error.mp h; exact h₁

theorem State.lengthOperand_faultsIn {l : List Nat} {s : State} (h₁ : 1 ∈ l) :
    FaultsIn l s.lengthOperand :=
  fun f h => by obtain ⟨rfl, -⟩ := State.lengthOperand_eq_error.mp h; exact h₁

theorem State.headerRegion_faultsIn {l : List Nat} {s : State} (h₅ : 5 ∈ l) : FaultsIn l s.headerRegion :=
  fun f h => by obtain ⟨rfl, -⟩ := State.headerRegion_eq_error.mp h; exact h₅

theorem HeaderCodec.buildHeader_faultsIn {l : List Nat} {len code : Nat} (h₁ : 1 ∈ l) (h₂ : 2 ∈ l) :
    FaultsIn l (HeaderCodec.buildHeader len code) := fun f h => by
  obtain ⟨rfl, -⟩ | ⟨rfl, -⟩ := HeaderCodec.buildHeader_eq_error.mp h
  · exact h₁
  · exact h₂

theorem FrameAssembler.buildFrame_faultsIn {l : List Nat} {t : CodeTable} {c : Code} {d : Bits}
    (h₂ : 2 ∈ l) : FaultsIn l (FrameAssembler.buildFrame t c d) :=
  fun f h => by obtain ⟨rfl, -⟩ := FrameAssembler.buildFrame_eq_error.mp h; exact h₂

theorem Decoder.decode_faultsIn {l : List Nat} {t : CodeTable} {c : Code} {e : Bits}
    (h₄ : 4 ∈ l) (h₅ : 5 ∈ l) : FaultsIn l (Decoder.decode t c e) := fun f h => by
  obtain ⟨rfl, -⟩ | ⟨rfl, -⟩ := Decoder.decode_error h
  · exact h₅
  · exact h₄

theorem HeaderCodec.decodeHeader_faultsIn {l : List Nat} {t : CodeTable} {e : Bits}
    (h₃ : 3 ∈ l) (h₄ : 4 ∈ l) (h₅ : 5 ∈ l) : FaultsIn l (HeaderCodec.decodeHeader t e) := fun f h => by
  obtain h | ⟨-, -, rfl, -⟩ := HeaderCodec.decodeHeader_eq_error.mp h
  · exact Decoder.decode_faultsIn h₄ h₅ f h
  · exact h₃

theorem FrameParser.cut_faultsIn {l : List Nat} {len : Nat} {d : Bits} (h₅ : 5 ∈ l) :
    FaultsIn l (FrameParser.cut len d) :=
  fun f h => by obtain ⟨rfl, -⟩ := FrameParser.cut_eq_error.mp h; exact h₅

theorem zero_mem_faultCodesOf (i : Instr) : 0 ∈ faultCodesOf i := by cases i <;> decide

theorem finishOut_fault_mem {i : Instr} {s s' : State} {r : Except RaisedFault Bits}
    (hr : FaultsIn (faultCodesOf i) r) (h : finishOut i s r = .next s') :
    s'.fault.toNat ∈ faultCodesOf i := by
  obtain ⟨f, hf, rfl⟩ | ⟨v, -, -, rfl⟩ := finishOut_next_cases h
  · simpa using hr f hf
  · simpa [FaultCode.number] using zero_mem_faultCodesOf i

theorem finishRegs_fault_mem {i : Instr} {s s' : State} {r : Except RaisedFault State}
    (hr : FaultsIn (faultCodesOf i) r) (h : finishRegs i s r = .next s') :
    s'.fault.toNat ∈ faultCodesOf i := by
  obtain ⟨f, hf, rfl⟩ | ⟨s₁, -, rfl⟩ := finishRegs_next_cases h
  · simpa using hr f hf
  · simpa [FaultCode.number] using zero_mem_faultCodesOf i

/-- The faults of each command are those of its parts (10_state.md R33). -/
theorem exec_fault_mem {i : Instr} {s s' : State} (h : exec i s = .next s') :
    s'.fault.toNat ∈ faultCodesOf i := by
  cases i <;> obtain ⟨-, h⟩ := whenReady_eq_next.mp h
  case ctidx =>
    exact finishRegs_fault_mem ((State.codeOperand_faultsIn (by decide)).bind fun _ => .ok _) h
  case ctlen =>
    exact finishRegs_fault_mem ((State.lengthOperand_faultsIn (by decide)).bind fun _ => .ok _) h
  case encode =>
    exact finishOut_fault_mem ((State.codeOperand_faultsIn (by decide)).bind fun _ => .ok _) h
  case hdrbld =>
    exact finishOut_fault_mem (HeaderCodec.buildHeader_faultsIn (by decide) (by decide)) h
  case hdrenc =>
    split at h
    · exact finishOut_fault_mem (.ok _) h
    · cases h
  case hdrdec =>
    exact finishRegs_fault_mem ((State.headerRegion_faultsIn (by decide)).bind fun _ =>
      (HeaderCodec.decodeHeader_faultsIn (by decide) (by decide) (by decide)).bind fun _ => .ok _) h
  case frmbld =>
    exact finishOut_fault_mem ((State.codeOperand_faultsIn (by decide)).bind fun _ =>
      FrameAssembler.buildFrame_faultsIn (by decide)) h
  case decode =>
    exact finishOut_fault_mem ((State.codeOperand_faultsIn (by decide)).bind fun _ =>
      Decoder.decode_faultsIn (by decide) (by decide)) h
  case frmprs =>
    exact finishOut_fault_mem ((State.headerRegion_faultsIn (by decide)).bind fun _ =>
      (HeaderCodec.decodeHeader_faultsIn (by decide) (by decide) (by decide)).bind fun _ =>
        (Decoder.decode_faultsIn (by decide) (by decide)).bind fun _ =>
          FrameParser.cut_faultsIn (by decide)) h

/-- What a fault leaves: the fault number, the emptied `OUT` of a command that writes it, and nothing
else (60_exceptions.md R200). -/
theorem exec_eq_outFault_of_fault_ne_zero {i : Instr} {s s' : State} (h : exec i s = .next s')
    (hf : s'.fault.toNat ≠ 0) : s' = outFault s (outAfterFault i s) s'.fault.toNat := by
  obtain ⟨-, ⟨f, rfl⟩ | ⟨-, v, -, rfl⟩ | ⟨s₁, -, rfl⟩⟩ := exec_next_cases h
  · rw [State.takeFault_fault]
    exact State.takeFault_eq_claim s i f
  all_goals exact absurd (by simp [FaultCode.number]) hf

/-! ### The write set -/

theorem mem_outWriters {i : Instr} : i ∈ outWriters ↔ writesOut i = true := by cases i <;> decide

theorem onlyWriteSet_takeFault (i : Instr) (s : State) (f : RaisedFault) :
    OnlyWriteSet i s (s.takeFault i f) := by
  rw [State.takeFault_eq]
  exact ⟨rfl, rfl, rfl, Status.upper_withFault _ _, rfl, rfl, rfl, fun _ => rfl, fun _ => rfl,
    fun _ => rfl, fun _ => rfl, fun hi => if_neg fun hw => hi (mem_outWriters.mpr hw)⟩

theorem onlyWriteSet_setOut {i : Instr} (hw : writesOut i = true) (s : State) (v : Bits) :
    OnlyWriteSet i s ((s.setOut v).setFault .ok) :=
  ⟨rfl, rfl, rfl, Status.upper_withFault _ _, rfl, rfl, rfl, fun _ => rfl, fun _ => rfl,
    fun _ => rfl, fun _ => rfl, fun hi => absurd (mem_outWriters.mpr hw) hi⟩

theorem onlyWriteSet_resultRegs {i : Instr} {s s₁ : State} (h : ResultRegs i s s₁) :
    OnlyWriteSet i s (s₁.setFault .ok) := by
  cases i <;> simp only [ResultRegs] at h
  case ctidx => obtain ⟨c, rfl⟩ := h; simp [OnlyWriteSet]
  case ctlen => obtain ⟨c, rfl⟩ := h; simp [OnlyWriteSet]
  case hdrdec => obtain ⟨len, c, rfl⟩ := h; simp [OnlyWriteSet]

/-- No command changes anything outside its write set (10_state.md R33). -/
theorem exec_onlyWriteSet {i : Instr} {s s' : State} (h : exec i s = .next s') : OnlyWriteSet i s s' := by
  obtain ⟨-, ⟨f, rfl⟩ | ⟨hw, v, -, rfl⟩ | ⟨s₁, h₁, rfl⟩⟩ := exec_next_cases h
  · exact onlyWriteSet_takeFault i s f
  · exact onlyWriteSet_setOut hw s v
  · exact onlyWriteSet_resultRegs h₁

/-! ### The read set -/

/-- Two answers of a command that differ at most outside its results: the same refusal, or next states
with the same FAULT and, when it is 0, the same results. -/
def SameAnswer (i : Instr) : StepResult → StepResult → Prop
  | .next s, .next t => t.fault = s.fault ∧ (s.fault = 0 → SameResults i s t)
  | .refused r, .refused q => r = q
  | .fault e, .fault g => e = g
  | _, _ => False

theorem SameAnswer.exists_next {i : Instr} {s' : State} {a b : StepResult} (h : SameAnswer i a b)
    (ha : a = .next s') :
    ∃ t', b = .next t' ∧ t'.fault = s'.fault ∧ (s'.fault = 0 → SameResults i s' t') := by
  subst ha
  match b, h with
  | .next t', h => exact ⟨t', rfl, h⟩

theorem SameAnswer.eq_refused {i : Instr} {r : Refusal} {a b : StepResult} (h : SameAnswer i a b)
    (ha : a = .refused r) : b = .refused r := by
  subst ha
  match b, h with
  | .refused _, h => exact congrArg _ h.symm

theorem sameResults_setFault {i : Instr} {s t : State} (h : SameResults i s t) (f g : FaultCode) :
    SameResults i (s.setFault f) (t.setFault g) := by cases i <;> exact h

theorem sameResults_setOut {i : Instr} (hw : writesOut i = true) (s t : State) (v : Bits) :
    SameResults i (s.setOut v) (t.setOut v) := by
  cases i <;> simp_all [SameResults, writesOut]

/-- Both states take the same fault. -/
theorem sameAnswer_takeFault (i : Instr) (s t : State) (f : RaisedFault) :
    SameAnswer i (.next (s.takeFault i f)) (.next (t.takeFault i f)) :=
  ⟨by simp, fun h => absurd (by simpa using h) f.number_ne_zero⟩

/-- Both states complete with the same results. -/
theorem sameAnswer_setFault_ok {i : Instr} {s t : State} (h : SameResults i s t) :
    SameAnswer i (.next (s.setFault .ok)) (.next (t.setFault .ok)) :=
  ⟨by simp, fun _ => sameResults_setFault h _ _⟩

theorem sameAnswer_whenReady {i : Instr} {s t : State} {a b : StepResult} (hr : s.ready = t.ready)
    (h : SameAnswer i a b) : SameAnswer i (whenReady s a) (whenReady t b) := by
  unfold whenReady
  rw [hr]
  split
  · exact h
  · rfl

/-- The end of a command that writes `OUT` depends on the result and the capacity alone. -/
theorem sameAnswer_finishOut {i : Instr} (hw : writesOut i = true) {s t : State}
    (hc : s.mem.cap = t.mem.cap) {r q : Except RaisedFault Bits} (h : r = q) :
    SameAnswer i (finishOut i s r) (finishOut i t q) := by
  subst h
  cases r with
  | error f => exact sameAnswer_takeFault i s t f
  | ok v =>
    have hh : s.mem.holds v.length = t.mem.holds v.length := by unfold Memory.holds; rw [hc]
    simp only [finishOut, hh]
    split
    · exact sameAnswer_setFault_ok (sameResults_setOut hw s t v)
    · rfl

/-- The end of a command that writes registers: both states read the same `x`, then go on alike. -/
theorem sameAnswer_finishRegs_bind {i : Instr} {s t : State} {α : Type} {x y : Except RaisedFault α}
    {g k : α → Except RaisedFault State} (h : x = y)
    (hg : ∀ a, SameAnswer i (finishRegs i s (g a)) (finishRegs i t (k a))) :
    SameAnswer i (finishRegs i s (x >>= g)) (finishRegs i t (y >>= k)) := by
  subst h
  cases x with
  | error f => exact sameAnswer_takeFault i s t f
  | ok a => exact hg a

theorem State.codeOperand_congr {s t : State} (h : s.code = t.code) : s.codeOperand = t.codeOperand := by
  unfold State.codeOperand; rw [h]

theorem State.lengthOperand_congr {s t : State} (h : s.n = t.n) : s.lengthOperand = t.lengthOperand := by
  unfold State.lengthOperand; rw [h]

theorem State.headerRegion_congr {s t : State} (h : s.inBuf = t.inBuf) : s.headerRegion = t.headerRegion := by
  unfold State.headerRegion; rw [h]

theorem State.payloadRegion_congr {s t : State} (h : s.inBuf = t.inBuf) :
    s.payloadRegion = t.payloadRegion := by unfold State.payloadRegion; rw [h]

/-- "The result of a command is a function of its read set alone" (10_state.md R33). -/
theorem exec_sameAnswer {i : Instr} {s t : State} (h : SameReads i s t) :
    SameAnswer i (exec i s) (exec i t) := by
  obtain ⟨hr, hcap, h⟩ := h
  cases i <;> refine sameAnswer_whenReady hr ?_
  case ctidx =>
    obtain ⟨hcode, -⟩ := h
    exact sameAnswer_finishRegs_bind (State.codeOperand_congr hcode) fun _ =>
      sameAnswer_setFault_ok ⟨rfl, rfl⟩
  case ctlen =>
    obtain ⟨hn, -⟩ := h
    exact sameAnswer_finishRegs_bind (State.lengthOperand_congr hn) fun _ =>
      sameAnswer_setFault_ok ⟨rfl, rfl⟩
  case encode =>
    obtain ⟨hin, hcode, hct⟩ := h
    exact sameAnswer_finishOut rfl hcap (by rw [State.codeOperand_congr hcode, hin, hct])
  case hdrbld =>
    obtain ⟨hlen, hcode⟩ := h
    exact sameAnswer_finishOut rfl hcap (by rw [hlen, hcode])
  case hdrenc =>
    obtain ⟨hin, hct⟩ := h
    rw [hin]
    split
    · exact sameAnswer_finishOut rfl hcap (by rw [hct])
    · rfl
  case hdrdec =>
    obtain ⟨hin, hct⟩ := h
    exact sameAnswer_finishRegs_bind (State.headerRegion_congr hin) fun _ =>
      sameAnswer_finishRegs_bind (by rw [hct]) fun _ => sameAnswer_setFault_ok ⟨rfl, rfl⟩
  case frmbld =>
    obtain ⟨hin, hcode, hct⟩ := h
    exact sameAnswer_finishOut rfl hcap (by rw [State.codeOperand_congr hcode, hin, hct])
  case decode =>
    obtain ⟨hin, hcode, hct⟩ := h
    exact sameAnswer_finishOut rfl hcap (by rw [State.codeOperand_congr hcode, hin, hct])
  case frmprs =>
    obtain ⟨hin, hct⟩ := h
    exact sameAnswer_finishOut rfl hcap
      (by rw [State.headerRegion_congr hin, State.payloadRegion_congr hin, hct])

/-- Settles O14: the write set and the faults from everything a command can do, the read set from the
agreement of its answers. -/
theorem commandsHaveTheirReadAndWriteSets : Obligations.CommandsHaveTheirReadAndWriteSets := by
  refine ⟨fun i s s' h => ?_, fun i s t s' hst h => ?_, fun i s t r hst h => ?_⟩
  · exact ⟨exec_onlyWriteSet h, exec_fault_mem h, exec_eq_outFault_of_fault_ne_zero h⟩
  · exact (exec_sameAnswer hst).exists_next h
  · exact (exec_sameAnswer hst).eq_refused h

end Sys2Proof.Machine

/-! SUPPORT. The statements of 30_encoding.md: which words are commands (R71), and the refusal of every
other word (R72), with the lemmas they rest on. -/

namespace Sys2Proof

/-! ### The command table -/

/-- The decoder compares the whole word (30_encoding.md R71). -/
theorem OpRow.fits_iff_of_mem {r : OpRow} (h : r ∈ opTable) (w : Byte) :
    r.fits w = true ↔ w = r.pattern := by
  have hmask : ∀ r ∈ opTable, r.mask = BitVec.allOnes 8 := by decide
  rw [OpRow.fits, hmask r h, BitVec.and_allOnes, beq_iff_eq]

/-- Each row holds the word of its own command. -/
theorem encode_instr_of_mem {r : OpRow} (h : r ∈ opTable) : encode r.instr = r.pattern := by
  revert r; decide

theorem decode_encode (i : Instr) : decode (encode i) = .ok i := by cases i <;> rfl

/-- A word decodes to a command exactly when it is that command's word. -/
theorem decode_eq_ok_iff {w : Byte} {i : Instr} : decode w = .ok i ↔ encode i = w := by
  refine ⟨fun h => ?_, fun h => h ▸ decode_encode i⟩
  unfold decode at h
  split at h
  case h_1 r hr =>
    have hmem : r ∈ opTable := List.mem_of_find?_eq_some hr
    have hw : w = r.pattern := (OpRow.fits_iff_of_mem hmem w).mp (List.find?_some (p := fun x : OpRow => x.fits w) hr)
    obtain rfl : r.instr = i := by simpa using h
    rw [encode_instr_of_mem hmem, hw]
  case h_2 => cases h

/-- The column "word" of 30_encoding.md R71. -/
def commandWords : List Byte := opTable.map OpRow.pattern

theorem encode_mem_commandWords (i : Instr) : encode i ∈ commandWords := by cases i <;> decide

/-- A word outside the table decodes to no command. -/
theorem decode_ne_ok_of_not_mem {w : Byte} (h : w ∉ commandWords) (i : Instr) : decode w ≠ .ok i :=
  fun hi => h (decode_eq_ok_iff.mp hi ▸ encode_mem_commandWords i)

/-- The nine words are distinct, so 256 - 9 words are left (30_encoding.md R72). -/
theorem card_reservedWords : (Finset.univ.filter fun w : Byte => w ∉ commandWords).card = 247 := by
  have hcompl : (Finset.univ.filter fun w : Byte => w ∉ commandWords) = commandWords.toFinsetᶜ := by
    ext w; simp
  have hnine : commandWords.toFinset.card = 9 := List.toFinset_card_of_nodup (by decide)
  have hall : Fintype.card Byte = 2 ^ 8 :=
    (Fintype.card_congr BitVec.equivFin.toEquiv).trans (Fintype.card_fin _)
  rw [hcompl, Finset.card_compl, hnine, hall]
  rfl

end Sys2Proof

namespace Sys2Proof.Machine

/-- A word that decodes to no command is refused as a reserved word. -/
theorem sendWord_of_decode_ne_ok {w : Byte} (h : ∀ i, Sys2Proof.decode w ≠ .ok i) (s : State) :
    ∃ e, sendWord w s = .refused (.reservedWord e) := by
  cases hd : Sys2Proof.decode w with
  | ok i => exact absurd hd (h i)
  | error e => exact ⟨e, by simp [sendWord, hd]⟩

/-- Settles O5: the pairs of the table are those of a command and its word. -/
theorem commandWordsDecodeAsTabled : Obligations.CommandWordsDecodeAsTabled := by
  intro w i
  rw [decode_eq_ok_iff, eq_comm]
  cases i <;> simp [encode]

/-- Settles O8: a word outside the table decodes to no command, and the line that sends it is refused. -/
theorem reservedWordsAreRefused : Obligations.ReservedWordsAreRefused := by
  refine ⟨card_reservedWords, fun s w rest hw hs => ?_⟩
  rw [step_of_script hs]
  exact sendWord_of_decode_ne_ok (decode_ne_ok_of_not_mem hw) (s.advance rest)

end Sys2Proof.Machine

/-! SUPPORT. The statements of 40_codetable.md: what `valid(CT)` says (R104), and the two lookup
commands (R111, R112), with the lemmas they rest on. -/

namespace Sys2Proof.Machine

open Sys2Proof.Claim

/-! ### The condition `valid(CT)` -/

/-- The sum mod 2 of the model is the parity of the claims. -/
theorem parity_eq_xorSum (m : Nat) (e : Nat → Bit) : parity m e = xorSum ((List.range m).map e) :=
  (xorSum_eq_odd_card m e).symm

theorem bits_ne_iff {s t : Bits} (hl : s.length = t.length) :
    s ≠ t ↔ ∃ i, i < s.length ∧ bitAt s i ≠ bitAt t i := by
  refine ⟨fun hne => ?_, fun ⟨i, _, hi⟩ he => hi (he ▸ rfl)⟩
  by_contra! hall
  exact hne (bits_ext hl hall)

theorem Matrix.shaped_iff (M : Matrix) (a b : Nat) :
    M.shaped a b = true ↔ M.length = a ∧ ∀ row ∈ M, row.length = b := by
  simp [Matrix.shaped]

/-- Two columns differ exactly when they differ in some row. -/
theorem Matrix.col_ne_col_iff (M : Matrix) (a p q : Nat) :
    M.col a p ≠ M.col a q ↔ ∃ i, i < a ∧ M.at i p ≠ M.at i q := by
  rw [bits_ne_iff (by simp), Matrix.col_length]
  refine exists_congr fun i => and_congr_right fun hi => ?_
  rw [Matrix.bitAt_col M p hi, Matrix.bitAt_col M q hi]

/-- A column is not all zero exactly when some row of it is 1. -/
theorem Matrix.col_ne_zeros_iff (M : Matrix) (a p : Nat) :
    M.col a p ≠ zeros a ↔ ∃ i, i < a ∧ M.at i p = true := by
  rw [bits_ne_iff (by simp), Matrix.col_length]
  refine exists_congr fun i => and_congr_right fun hi => ?_
  rw [Matrix.bitAt_col M p hi, bitAt_zeros, ne_eq, Bool.not_eq_false]

/-- Condition (a) of 40_codetable.md R104. -/
theorem CodeTable.shapesOk_iff (t : CodeTable) (c : Code) :
    t.shapesOk c = true ↔
      (t.gen c).length = c.k ∧ (∀ row ∈ t.gen c, row.length = c.n) ∧
        (t.par c).length = c.r ∧ ∀ row ∈ t.par c, row.length = c.n := by
  rw [CodeTable.shapesOk, Bool.and_eq_true, Matrix.shaped_iff, Matrix.shaped_iff, and_assoc]

/-- Condition (b) of 40_codetable.md R104. -/
theorem CodeTable.systematic_iff (t : CodeTable) (c : Code) :
    t.systematic c = true ↔
      ∀ i j, i < c.k → j < c.k → (t.gen c).at i (c.r + j) = decide (i = j) := by
  simp only [CodeTable.systematic, List.all_eq_true, List.mem_range, beq_iff_eq]
  exact ⟨fun h i j hi hj => h i hi j hj, fun h i hi j hj => h i j hi hj⟩

/-- The columns of `H` are pairwise different: the list of them has no duplicate. -/
theorem CodeTable.nodup_parCols_iff (t : CodeTable) (c : Code) :
    (t.parCols c).Nodup ↔
      ∀ p q, p < q → q < c.n → ∃ a, a < c.r ∧ (t.par c).at a p ≠ (t.par c).at a q := by
  simp only [← Matrix.col_ne_col_iff, CodeTable.parCols, List.Nodup, List.pairwise_iff_getElem,
    List.length_map, List.length_range, List.getElem_map, List.getElem_range]
  exact ⟨fun h p q hpq hq => h p q (hpq.trans hq) hq hpq, fun h p q _ hq hpq => h p q hpq hq⟩

/-- No column of `H` is all zero. -/
theorem CodeTable.zeros_notMem_parCols_iff (t : CodeTable) (c : Code) :
    zeros c.r ∉ t.parCols c ↔ ∀ p, p < c.n → ∃ a, a < c.r ∧ (t.par c).at a p = true := by
  simp only [← Matrix.col_ne_zeros_iff, CodeTable.parCols, List.mem_map, List.mem_range, not_exists,
    not_and, ne_eq]

/-- Condition (c) of 40_codetable.md R104. -/
theorem CodeTable.columnsOk_iff (t : CodeTable) (c : Code) :
    t.columnsOk c = true ↔
      (∀ p q, p < q → q < c.n → ∃ a, a < c.r ∧ (t.par c).at a p ≠ (t.par c).at a q) ∧
        ∀ p, p < c.n → ∃ a, a < c.r ∧ (t.par c).at a p = true := by
  rw [← CodeTable.nodup_parCols_iff, ← CodeTable.zeros_notMem_parCols_iff]
  simp [CodeTable.columnsOk]

/-- Condition (d) of 40_codetable.md R104. -/
theorem CodeTable.orthogonal_iff (t : CodeTable) (c : Code) :
    t.orthogonal c = true ↔
      ∀ i a, i < c.k → a < c.r →
        parity c.n (fun j => (t.gen c).at i j && (t.par c).at a j) = false := by
  simp only [CodeTable.orthogonal, List.all_eq_true, List.mem_range, Bool.not_eq_true',
    parity_eq_xorSum]
  exact ⟨fun h i a hi ha => h i hi a ha, fun h i hi a ha => h i a hi ha⟩

theorem CodeTable.valid_iff (t : CodeTable) : t.valid = true ↔ ∀ c : Code, t.validAt c = true :=
  ⟨CodeTable.validAt_of_valid, fun h => List.all_eq_true.mpr fun c _ => h c⟩

/-- Settles O4: the check of each code is the conjunction of the four conditions, taken one by one. -/
theorem validTablesAreThoseOfTheSpec : Obligations.ValidTablesAreThoseOfTheSpec := by
  intro t
  rw [CodeTable.valid_iff]
  refine forall_congr' fun c => ?_
  simp only [CodeTable.validAt, Bool.and_eq_true, and_assoc, CodeTable.shapesOk_iff,
    CodeTable.systematic_iff, CodeTable.columnsOk_iff, CodeTable.orthogonal_iff]

/-! ### The lookup commands -/

/-- The rows of 00_scope.md R6 are those of the four codes. -/
theorem exists_code_of_mem_params {row : Nat × Nat × Nat} (h : row ∈ params) :
    ∃ c : Code, row = (c.index, c.n, c.k) := by
  have hrows : params = Code.all.map fun c => (c.index, c.n, c.k) := rfl
  rw [hrows, List.mem_map] at h
  obtain ⟨c, -, hc⟩ := h
  exact ⟨c, hc.symm⟩

/-- CTIDX with the index of a code in `CODE` (40_codetable.md R111). -/
theorem exec_ctidx_of_index {s : State} {c : Code} (hr : s.ready = true) (hc : s.code.toNat = c.index) :
    exec .ctidx s =
      .next (faultKeep { s with n := BitVec.ofNat 16 c.n, k := BitVec.ofNat 16 c.k } 0) := by
  simp only [exec, execCtidx, whenReady_of_ready hr, State.codeOperand_eq_ok.mpr hc]
  exact finishRegs_ok

/-- CTIDX with no index in `CODE` (40_codetable.md R111). -/
theorem exec_ctidx_of_not_index {s : State} (hr : s.ready = true) (hc : 3 < s.code.toNat) :
    exec .ctidx s = .next (faultKeep s 1) := by
  simp only [exec, execCtidx, whenReady_of_ready hr, State.codeOperand_eq_error.mpr ⟨rfl, hc⟩]
  exact finishRegs_error (by decide)

/-- CTLEN with the length of a code in `N` (40_codetable.md R112). -/
theorem exec_ctlen_of_length {s : State} {c : Code} (hr : s.ready = true) (hc : s.n.toNat = c.n) :
    exec .ctlen s =
      .next (faultKeep { s with code := BitVec.ofNat 16 c.index, k := BitVec.ofNat 16 c.k } 0) := by
  simp only [exec, execCtlen, whenReady_of_ready hr, State.lengthOperand_eq_ok.mpr hc]
  exact finishRegs_ok

/-- CTLEN with no length in `N`: no nearest match and no default (40_codetable.md R112, R113). -/
theorem exec_ctlen_of_not_length {s : State} (hr : s.ready = true)
    (hc : s.n.toNat ≠ 3 ∧ s.n.toNat ≠ 7 ∧ s.n.toNat ≠ 15 ∧ s.n.toNat ≠ 31) :
    exec .ctlen s = .next (faultKeep s 1) := by
  simp only [exec, execCtlen, whenReady_of_ready hr, State.lengthOperand_eq_error.mpr ⟨rfl, hc⟩]
  exact finishRegs_error (by decide)

/-- Settles O23: `CODE` holds the index of a code, or a number above 3. -/
theorem ctidxWritesLengthAndDataBits : Obligations.CtidxWritesLengthAndDataBits := by
  refine ⟨decode_encode .ctidx, fun s hr => ⟨fun row hrow hcode => ?_, exec_ctidx_of_not_index hr⟩⟩
  obtain ⟨c, rfl⟩ := exists_code_of_mem_params hrow
  exact exec_ctidx_of_index hr hcode

/-- Settles O24: `N` holds the length of a code, or a number that is none of the four. -/
theorem ctlenWritesIndexAndDataBits : Obligations.CtlenWritesIndexAndDataBits := by
  refine ⟨decode_encode .ctlen, fun s hr => ⟨fun row hrow hn => ?_, fun hn => ?_⟩⟩
  · obtain ⟨c, rfl⟩ := exists_code_of_mem_params hrow
    exact exec_ctlen_of_length hr hn
  · exact exec_ctlen_of_not_length hr (by simpa [params] using hn)

end Sys2Proof.Machine

/-! SUPPORT. The statements of 41_encoder.md: the padding (R121), every bit of a codeword (R122, R123),
and the command ENCODE (R124), with the lemmas they rest on. -/

namespace Sys2Proof.Machine

open Sys2Proof.Claim

/-! ### The padding -/

theorem Encoder.length_pad_eq_add (c : Code) (d : Bits) :
    (Encoder.pad c d).length = d.length + Encoder.padding c d.length := by
  rw [Encoder.pad, List.length_append, zeros_length]

theorem Encoder.padding_lt (c : Code) (len : Nat) : Encoder.padding c len < c.k :=
  Nat.mod_lt _ c.k_pos

/-- Data that fill their last block get no padding (41_encoder.md R121). -/
theorem Encoder.pad_of_mod_eq_zero {c : Code} {d : Bits} (h : d.length % c.k = 0) :
    Encoder.pad c d = d := by
  obtain ⟨m, hm⟩ := Nat.dvd_of_mod_eq_zero h
  exact Encoder.pad_eq_self hm

/-- The outer `mod k` of R121 only matters when the length is a multiple of `k`. -/
theorem Encoder.padding_of_mod_ne_zero {c : Code} {len : Nat} (h : len % c.k ≠ 0) :
    Encoder.padding c len = c.k - len % c.k :=
  Nat.mod_eq_of_lt (Nat.sub_lt c.k_pos (Nat.pos_of_ne_zero h))

theorem Encoder.pad_of_mod_ne_zero {c : Code} {d : Bits} (h : d.length % c.k ≠ 0) :
    Encoder.pad c d = d ++ List.replicate (c.k - d.length % c.k) false := by
  rw [Encoder.pad, Encoder.padding_of_mod_ne_zero h, zeros]

/-- Settles O28: the two lengths agree for every code; the bits by whether `k` divides the length. -/
theorem paddingIsTheSpecs : Obligations.PaddingIsTheSpecs := fun c d =>
  ⟨Encoder.pad_length c d, Encoder.length_pad_eq_add c d, Encoder.pad_of_mod_eq_zero,
    Encoder.pad_of_mod_ne_zero, Nat.le_pred_of_lt (Encoder.padding_lt c d.length),
    Encoder.pad_of_mod_eq_zero (Nat.zero_mod c.k)⟩

/-! ### The bits of a codeword -/

/-- Bit `i` of data block `b`: a bit of the data, or a padding zero past their end. -/
theorem Encoder.bitAt_slice_pad (c : Code) (d : Bits) (b : Nat) {i : Nat} (hi : i < c.k) :
    bitAt (slice (Encoder.pad c d) (b * c.k) ((b + 1) * c.k)) i = bitAt d (b * c.k + i) := by
  rw [bitAt_slice, if_pos (by rw [Nat.succ_mul]; omega), Encoder.bitAt_pad]

/-- Bit `j` of codeword `b` is the sum of the bits of data block `b` that column `j` of `G` selects
(41_encoder.md R122, R123). -/
theorem Encoder.bitAt_encode_eq_parity (t : CodeTable) (c : Code) (d : Bits) {b j : Nat}
    (hb : b < ceilDiv d.length c.k) (hj : j < c.n) :
    bitAt (Encoder.encode t c d) (b * c.n + j) =
      parity c.k fun i => bitAt d (b * c.k + i) && (t.gen c).at i j := by
  rw [Encoder.bitAt_encode t c d hb hj, Encoder.encBlock, bitAt_vecMul _ _ hj, parity_eq_xorSum]
  refine xorSum_map_congr fun i hi => ?_
  rw [Encoder.bitAt_slice_pad c d b (List.mem_range.mp hi)]

/-! ### The command ENCODE -/

/-- ENCODE with the index of a code in `CODE` and a result that fits (41_encoder.md R124). -/
theorem exec_encode_of_index {s : State} {c : Code} (hr : s.ready = true) (hc : s.code.toNat = c.index)
    (hf : Fits s (c.n * ceilDiv s.inBuf.length c.k)) :
    exec .encode s = .next (outFault s (Encoder.encode s.ct c s.inBuf) 0) := by
  rw [← Encoder.encode_length s.ct] at hf
  simp only [exec, execEncode, whenReady_of_ready hr, State.codeOperand_eq_ok.mpr hc]
  exact finishOut_ok hf

/-- ENCODE with no index in `CODE` (41_encoder.md R124). -/
theorem exec_encode_of_not_index {s : State} (hr : s.ready = true) (hc : 3 < s.code.toNat) :
    exec .encode s = .next (outFault s [] 1) := by
  simp only [exec, execEncode, whenReady_of_ready hr, State.codeOperand_eq_error.mpr ⟨rfl, hc⟩]
  exact finishOut_error (by decide)

/-- Settles O27: the result is `encode(CODE, IN)`, whose length and bits are those of the statement. -/
theorem encodeComputesEveryCodewordBit : Obligations.EncodeComputesEveryCodewordBit :=
  fun s c hr hc hf => ⟨Encoder.encode s.ct c s.inBuf, exec_encode_of_index hr hc hf,
    Encoder.encode_length s.ct c s.inBuf, fun _ _ => Encoder.bitAt_encode_eq_parity s.ct c s.inBuf⟩

/-- The first example of 41_encoder.md R124: code 0 writes each data bit three times. -/
theorem Encoder.encode_repetition_10 {t : CodeTable} (h : t.valid = true) :
    Encoder.encode t .repetition3_1 (row 2 0b10) = row 6 0b111000 := by
  have hlen : (Encoder.encode t .repetition3_1 (row 2 0b10)).length = 6 :=
    Encoder.encode_repetition_length t _
  have htriple : ∀ p, p < 6 → bitAt (row 2 0b10) (p / 3) = bitAt (row 6 0b111000) p := by decide
  refine bits_ext hlen fun p hp => ?_
  rw [hlen] at hp
  have hbit : p / 3 < (row 2 0b10).length := by
    have : (row 2 0b10).length = 2 := rfl
    omega
  rw [← htriple p hp, ← Encoder.bitAt_encode_repetition h _ hbit (Nat.mod_lt p (by decide)),
    Nat.div_add_mod]

/-- The second example of 41_encoder.md R124: two blocks of code 1, the second padded, under the
reference table. -/
theorem Encoder.encode_refTable_01101 :
    Encoder.encode refTable .hamming7_4 (row 5 0b01101) = row 14 0b11001101101000 := by decide

/-- Settles O26: ENCODE by whether `CODE` holds the index of a code, and the two examples. -/
theorem encodeWritesTheCodewords : Obligations.EncodeWritesTheCodewords :=
  ⟨decode_encode .encode,
    fun _ hr => ⟨exec_encode_of_not_index hr, fun _ => exec_encode_of_index hr⟩,
    fun _ => Encoder.encode_repetition_10, Encoder.encode_refTable_01101⟩

end Sys2Proof.Machine

/-! SUPPORT. The statements of 42_header_codec.md: the commands HDRENC (R139) and HDRDEC (R142), and that
a header gives back what it was built from (R143), with the lemmas they rest on. -/

namespace Sys2Proof.Machine

open Sys2Proof.Claim

/-! ### What the next command sees of a result -/

@[simp] theorem ct_outFault (s : State) (v : Bits) (f : Nat) : (outFault s v f).ct = s.ct := rfl

@[simp] theorem outBuf_outFault (s : State) (v : Bits) (f : Nat) : (outFault s v f).outBuf = v := rfl

@[simp] theorem ready_outFault_zero (s : State) (v : Bits) : (outFault s v 0).ready = s.ready := by
  rw [← State.setOut_setFault_eq, State.setFault_ready, State.setOut_ready]

@[simp] theorem fault_faultKeep_zero (s : State) : (faultKeep s 0).fault = 0 := by
  have h : s.setFault .ok = faultKeep s 0 := State.setFault_eq s .ok
  rw [← h, State.setFault_fault, FaultCode.number]

/-! ### The encoded header -/

theorem Code.exists_index_eq {i : Nat} (h : i ≤ 3) : ∃ c : Code, i = c.index := by
  have hne : Code.byIndex i ≠ none := fun hn => Nat.not_lt.mpr h (Code.byIndex_eq_none.mp hn)
  obtain ⟨c, hc⟩ := Option.ne_none_iff_exists'.mp hne
  exact ⟨c, Code.byIndex_eq_some.mp hc⟩

/-- Code 0 writes each data bit three times (30_encoding.md R80). -/
theorem Encoder.encode_repetition_eq {t : CodeTable} (h : t.valid = true) (d : Bits) :
    Encoder.encode t .repetition3_1 d = (List.range (3 * d.length)).map fun p => bitAt d (p / 3) := by
  have hlen := Encoder.encode_repetition_length t d
  refine bits_ext (by simpa using hlen) fun p hp => ?_
  rw [hlen] at hp
  rw [bitAt_range_map, if_pos hp, ← Encoder.bitAt_encode_repetition h d
    (Nat.div_lt_of_lt_mul hp) (Nat.mod_lt p (by decide)), Nat.div_add_mod]

/-- The header of the examples of R136, R139 and R142. -/
theorem row_eq_exampleFields :
    row 32 0b00000000000001010000000000000001 = u16 5 ++ u16 Code.hamming7_4.index := by decide

/-- The example of R139. -/
theorem Encoder.encode_exampleFields {t : CodeTable} (h : t.valid = true) :
    Encoder.encode t .repetition3_1 (row 32 0b00000000000001010000000000000001) = exampleHeader := by
  rw [Encoder.encode_repetition_eq h]
  decide

/-- A flip of one bit is at most one difference in each block. -/
theorem differences_flipBit_le {x : Bits} {p : Nat} (hp : p < x.length) (a w : Nat) :
    differences x (flipBit x p) a w ≤ 1 := by
  refine le_trans (Finset.card_le_card (t := {p - a}) fun i hi => ?_) (by simp)
  have hne := (Finset.mem_filter.mp hi).2
  rw [bitAt_flipBit hp] at hne
  have hip : a + i = p := by
    by_contra hip
    exact hne (by simp [hip])
  rw [Finset.mem_singleton]
  omega

theorem slice_zero_of_length {e : Bits} {m : Nat} (h : e.length = m) : slice e 0 m = e := by
  simp [slice, ← h]

/-- An encoded header with at most one flip in each group of three bits decodes to the two fields it was
built from (42_header_codec.md R143, R144). -/
theorem HeaderCodec.decodeHeader_of_oneFlipPer {t : CodeTable} (h : t.valid = true) {len : Nat} {c : Code}
    {e : Bits} (hlen : len ≤ 65535) (he : e.length = 96)
    (hf : OneFlipPer (Encoder.encode t .repetition3_1 (u16 len ++ u16 c.index)) e 0 3 32) :
    HeaderCodec.decodeHeader t e = .ok (len, c) := by
  have hl : (u16 len ++ u16 c.index).length = 32 := by simp
  have hd : Decoder.decode t .repetition3_1 e = .ok (u16 len ++ u16 c.index) := by
    rw [Decoder.decode_of_oneFlipPer h (by rw [hl, he]; rfl) (by rw [hl]; exact hf),
      Encoder.pad_of_mod_eq_zero (Nat.mod_one _)]
  have hlo : slice (u16 len ++ u16 c.index) 0 16 = u16 len := List.take_left' (u16_length len)
  have hhi : slice (u16 len ++ u16 c.index) 16 32 = u16 c.index := by
    simp [slice, List.drop_left' (u16_length len)]
  have hc : c.index ≤ 65535 := c.index_le.trans (by decide)
  simp only [HeaderCodec.decodeHeader, hdrCode, hd, bind, Except.bind, hlo, hhi, val_u16 hlen, val_u16 hc,
    Code.byIndex_index]

/-! ### The three commands -/

/-- HDRBLD with both registers in range (42_header_codec.md R136). -/
theorem exec_hdrbld_of_range {s : State} {c : Code} (hr : s.ready = true) (hc : s.code.toNat = c.index)
    (hlen : s.len.toNat ≤ 65535) (hf : Fits s 32) :
    exec .hdrbld s = .next (outFault s (u16 s.len.toNat ++ u16 c.index) 0) := by
  have hb : HeaderCodec.buildHeader s.len.toNat s.code.toNat = .ok (u16 s.len.toNat ++ u16 c.index) := by
    rw [hc]
    exact (if_neg (Nat.not_lt.mpr c.index_le)).trans (if_neg (Nat.not_lt.mpr hlen))
  simp only [exec, execHdrbld, whenReady_of_ready hr, hb]
  exact finishOut_ok (by simpa using hf)

/-- HDRENC with 32 bits in `IN` and a result that fits (42_header_codec.md R139). -/
theorem exec_hdrenc_of_length {s : State} (hr : s.ready = true) (hl : s.inBuf.length = 32)
    (hf : Fits s 96) :
    exec .hdrenc s = .next (outFault s (Encoder.encode s.ct .repetition3_1 s.inBuf) 0) := by
  have he : (Encoder.encode s.ct .repetition3_1 s.inBuf).length = 96 := by
    rw [Encoder.encode_repetition_length, hl]
  simp only [exec, execHdrenc, whenReady_of_ready hr]
  exact (if_pos hl).trans (finishOut_ok (he.symm ▸ hf))

/-- HDRENC with any other number of bits in `IN` (42_header_codec.md R139). -/
theorem exec_hdrenc_of_not_length {s : State} (hr : s.ready = true) (hl : s.inBuf.length ≠ 32) :
    exec .hdrenc s = .refused .headerNot32Bits := by
  simp only [exec, execHdrenc, whenReady_of_ready hr]
  exact if_neg hl

theorem State.headerRegion_eq_slice {s : State} (h : 96 ≤ s.inBuf.length) :
    s.headerRegion = .ok (slice s.inBuf 0 96) := if_neg (Nat.not_lt.mpr h)

/-- HDRDEC with fewer than 96 bits in `IN` (42_header_codec.md R142). -/
theorem exec_hdrdec_of_short {s : State} (hr : s.ready = true) (hl : s.inBuf.length < 96) :
    exec .hdrdec s = .next (faultKeep s 5) := by
  simp only [exec, execHdrdec, whenReady_of_ready hr, State.headerRegion_eq_error.mpr ⟨rfl, hl⟩]
  exact finishRegs_error (by decide)

/-- HDRDEC when `decode_header` faults (42_header_codec.md R142). -/
theorem exec_hdrdec_of_error {s : State} {f : RaisedFault} (hr : s.ready = true)
    (hl : 96 ≤ s.inBuf.length) (hd : HeaderCodec.decodeHeader s.ct (slice s.inBuf 0 96) = .error f) :
    exec .hdrdec s = .next (faultKeep s f.number.toNat) := by
  simp only [exec, execHdrdec, whenReady_of_ready hr, State.headerRegion_eq_slice hl, bind, Except.bind, hd]
  exact finishRegs_error (by decide)

/-- HDRDEC when `decode_header` answers (42_header_codec.md R142). -/
theorem exec_hdrdec_of_ok {s : State} {len : Nat} {c : Code} (hr : s.ready = true)
    (hl : 96 ≤ s.inBuf.length) (hd : HeaderCodec.decodeHeader s.ct (slice s.inBuf 0 96) = .ok (len, c)) :
    exec .hdrdec s = .next (faultKeep
      { s with len := BitVec.ofNat 32 len, code := BitVec.ofNat 16 c.index } 0) := by
  simp only [exec, execHdrdec, whenReady_of_ready hr, State.headerRegion_eq_slice hl, bind, Except.bind, hd]
  exact finishRegs_ok

/-- HDRDEC on an encoded header with at most one flip in each group of three bits
(42_header_codec.md R144). -/
theorem exec_hdrdec_of_oneFlipPer {s : State} (hs : s.Usable) {len : Nat} {c : Code} (hlen : len ≤ 65535)
    (hl : s.inBuf.length = 96)
    (hf : OneFlipPer (Encoder.encode s.ct .repetition3_1 (u16 len ++ u16 c.index)) s.inBuf 0 3 32) :
    exec .hdrdec s = .next (faultKeep
      { s with len := BitVec.ofNat 32 len, code := BitVec.ofNat 16 c.index } 0) := by
  obtain ⟨hr, hv⟩ := hs
  refine exec_hdrdec_of_ok hr hl.ge ?_
  rw [slice_zero_of_length hl]
  exact HeaderCodec.decodeHeader_of_oneFlipPer hv hlen hl hf

/-! ### The statements -/

/-- Settles O32: HDRENC by whether `IN` holds 32 bits, and the example. -/
theorem hdrencEncodesThirtyTwoBits : Obligations.HdrencEncodesThirtyTwoBits :=
  ⟨decode_encode .hdrenc, fun _ hr => ⟨exec_hdrenc_of_not_length hr, exec_hdrenc_of_length hr⟩,
    fun _ => Encoder.encode_exampleFields⟩

/-- Settles O34: HDRDEC by the length of `IN` and the answer of `decode_header`; the example is the
encoding of the fields 5 and 1, with at most one flip in each of its groups. -/
theorem hdrdecWritesLengthAndIndex : Obligations.HdrdecWritesLengthAndIndex := by
  refine ⟨decode_encode .hdrdec, fun s hr => ⟨exec_hdrdec_of_short hr, fun hl =>
    ⟨fun _ => exec_hdrdec_of_error hr hl, fun _ _ => exec_hdrdec_of_ok hr hl⟩⟩, fun s p hs hin => ?_⟩
  have hlen : exampleHeader.length = 96 := by decide
  refine exec_hdrdec_of_oneFlipPer hs (len := 5) (c := .hamming7_4) (by decide) ?_ ?_
  · obtain hin | ⟨-, hin⟩ := hin <;> simp [hin, hlen]
  · rw [← row_eq_exampleFields, Encoder.encode_exampleFields hs.2]
    intro b _
    obtain hin | ⟨hp, hin⟩ := hin
    · rw [hin, differences_self]; exact Nat.zero_le 1
    · rw [hin]; exact differences_flipBit_le (hlen.symm ▸ hp) _ _

/-- Settles O36: each command completes, and HDRDEC reads a header in which no bit was flipped. -/
theorem headerRecoversItsParameters : Obligations.HeaderRecoversItsParameters := by
  intro s x y ⟨hr, hv⟩ hlen hcode hf
  obtain ⟨c, hc⟩ := Code.exists_index_eq hcode
  have hheader : (u16 s.len.toNat ++ u16 c.index).length = 32 := by simp
  have hindex : BitVec.ofNat 16 c.index = s.code := by rw [← hc]; exact BitVec.ofNat_toNat ..
  refine ⟨_, _, _,
    exec_hdrbld_of_range hr hc hlen fun m hm => le_trans (by decide) (hf m hm),
    exec_hdrenc_of_length (by simpa using hr) hheader hf,
    exec_hdrdec_of_oneFlipPer (c := c) ⟨?_, ?_⟩ hlen ?_ fun b _ => ?_, ?_, ?_, fault_faultKeep_zero _⟩
  · simpa using hr
  · exact hv
  · simp [Encoder.encode_repetition_length]
  · simp [differences_self]
  · exact BitVec.ofNat_toNat ..
  · exact hindex

end Sys2Proof.Machine

/-! SUPPORT. The statements of 44_decoder.md: what one block decodes to (R167), and that one flipped bit in
each codeword is corrected (R174), with the lemmas they rest on. -/

namespace Sys2Proof.Machine

open Sys2Proof.Claim

/-! ### The syndrome and the lookup, under every table -/

/-- The syndrome of the claims, its bits as parities, is that of the decoder (44_decoder.md R161). -/
theorem syndromeOf_eq_syndrome (t : CodeTable) (c : Code) (b : Bits) :
    syndromeOf t c b = Decoder.syndrome t c b := by
  simp only [syndromeOf, Decoder.syndrome, mulVec, parity_eq_xorSum]

/-- The lookup answers the first position whose column equals the syndrome (44_decoder.md R164). -/
theorem Decoder.locate_eq_some_iff {t : CodeTable} {c : Code} {y : Bits} {p : Nat} :
    Decoder.locate t c y = some p ↔
      p < c.n ∧ (t.par c).col c.r p = y ∧ ∀ q, q < p → (t.par c).col c.r q ≠ y := by
  rw [Decoder.locate, List.find?_range_eq_some, List.mem_range]
  simp only [beq_iff_eq, Bool.not_eq_true', beq_eq_false_iff_ne, ne_eq, and_left_comm]

/-- The lookup answers nothing when no column equals the syndrome (44_decoder.md R164). -/
theorem Decoder.locate_eq_none_iff {t : CodeTable} {c : Code} {y : Bits} :
    Decoder.locate t c y = none ↔ ∀ p, p < c.n → (t.par c).col c.r p ≠ y := by
  simp only [Decoder.locate, List.find?_eq_none, List.mem_range, beq_iff_eq, ne_eq]

/-! ### The block decoder, under every table -/

/-- A zero syndrome: the block stands as it is (44_decoder.md R167). -/
theorem Decoder.decBlock_of_syndrome_eq_zeros {t : CodeTable} {c : Code} {b : Bits}
    (hz : Decoder.syndrome t c b = zeros c.r) :
    Decoder.decBlock t c b = .ok (Decoder.extract c b) := if_pos hz

/-- A nonzero syndrome that the lookup finds: the bit at its position is flipped (44_decoder.md R167). -/
theorem Decoder.decBlock_of_locate_eq_some {t : CodeTable} {c : Code} {b : Bits} {p : Nat}
    (hz : Decoder.syndrome t c b ≠ zeros c.r)
    (hl : Decoder.locate t c (Decoder.syndrome t c b) = some p) :
    Decoder.decBlock t c b = .ok (Decoder.extract c (flipBit b p)) := by
  simp only [Decoder.decBlock, if_neg hz, hl]

/-- A nonzero syndrome that the lookup does not find (44_decoder.md R167). -/
theorem Decoder.decBlock_of_locate_eq_none {t : CodeTable} {c : Code} {b : Bits}
    (hz : Decoder.syndrome t c b ≠ zeros c.r)
    (hl : Decoder.locate t c (Decoder.syndrome t c b) = none) :
    Decoder.decBlock t c b = .error .uncorrectableBlock := by
  simp only [Decoder.decBlock, if_neg hz, hl]

/-- Settles O40: the three answers of the block decoder, by the syndrome and by what the lookup finds. -/
theorem decBlockPutsTheFourStepsTogether : Obligations.DecBlockPutsTheFourStepsTogether := by
  intro t c b hb
  rw [syndromeOf_eq_syndrome]
  refine ⟨Decoder.decBlock_of_syndrome_eq_zeros, fun hz => ⟨fun p hp hcol hfirst => ?_, fun hnone => ?_⟩⟩
  · have hl := Decoder.locate_eq_some_iff.mpr ⟨hp, hcol, hfirst⟩
    refine ⟨_, Decoder.decBlock_of_locate_eq_some hz hl, Decoder.extract_length (by simpa using hb),
      fun i hi => ?_⟩
    rw [Decoder.bitAt_extract _ hi, bitAt_flipBit (hb.symm ▸ hp)]
  · exact Decoder.decBlock_of_locate_eq_none hz (Decoder.locate_eq_none_iff.mpr hnone)

/-! ### The command DECODE -/

/-- The padded data, the number of padding zeros written out (41_encoder.md R121). -/
theorem Encoder.pad_eq_append_replicate (c : Code) (d : Bits) :
    Encoder.pad c d = d ++ List.replicate (c.k * ceilDiv d.length c.k - d.length) false := by
  rw [Encoder.pad, zeros, ← Encoder.length_add_padding, Nat.add_sub_cancel_left]

/-- DECODE with the index of a code in `CODE`, an `IN` that decodes and a result that fits
(44_decoder.md R171). -/
theorem exec_decode_of_ok {s : State} {c : Code} {v : Bits} (hr : s.ready = true)
    (hc : s.code.toNat = c.index) (hd : Decoder.decode s.ct c s.inBuf = .ok v) (hf : Fits s v.length) :
    exec .decode s = .next (outFault s v 0) := by
  simp only [exec, execDecode, whenReady_of_ready hr, State.codeOperand_eq_ok.mpr hc, bind, Except.bind, hd]
  exact finishOut_ok hf

/-- Settles O43: each block is its codeword or one flip away from it, so it decodes to its data block; the
result is the padded data. -/
theorem decodeCorrectsOneErrorPerCodeword : Obligations.DecodeCorrectsOneErrorPerCodeword := by
  intro s c d ⟨hr, hv⟩ hc hl hflip hf
  rw [← Encoder.pad_eq_append_replicate]
  rw [← Encoder.pad_length] at hf
  exact exec_decode_of_ok hr hc (Decoder.decode_of_oneFlipPer hv hl hflip) hf

end Sys2Proof.Machine

/-! SUPPORT. The statements of 60_exceptions.md: fault entry (R200), and the exact conditions of
UnsupportedCode, ValueOutOfRange, HeaderCorrupt and FrameTruncated (R192 to R194, R196), with the lemmas they
rest on. -/

namespace Sys2Proof.Machine

open Sys2Proof.Claim

/-! ### Fault entry -/

/-- Settles O15: fault entry in the claims' vocabulary for each of the five; a command that did not take a
fault has written FAULT = 0. -/
theorem faultEntryWritesFaultAndEmptiesOut : Obligations.FaultEntryWritesFaultAndEmptiesOut := by
  refine ⟨fun s i => ⟨State.takeFault_eq_claim s i _, State.takeFault_eq_claim s i _,
    State.takeFault_eq_claim s i _, State.takeFault_eq_claim s i _, State.takeFault_eq_claim s i _⟩,
    fun i s s' h hf => ?_⟩
  obtain ⟨hr, ⟨f, rfl⟩ | ⟨-, v, -, rfl⟩ | ⟨s₁, -, rfl⟩⟩ := exec_next_cases h
  · exact ⟨f, rfl, by simpa using hr⟩
  all_goals exact absurd (State.setFault_fault _ _) hf

/-! ### FAULT after a command is the fault of its result -/

theorem RaisedFault.number_inj {f g : RaisedFault} : f.number = g.number ↔ f = g := by
  cases f <;> cases g <;> decide

theorem finishOut_fault_iff {i : Instr} {s s' : State} {r : Except RaisedFault Bits}
    (h : finishOut i s r = .next s') (f : RaisedFault) :
    s'.fault = f.number ↔ r = .error f := by
  obtain ⟨g, rfl, rfl⟩ | ⟨v, rfl, -, rfl⟩ := finishOut_next_cases h
  · simp [RaisedFault.number_inj]
  · simpa [FaultCode.number] using f.number_ne_zero.symm

theorem finishRegs_fault_iff {i : Instr} {s s' : State} {r : Except RaisedFault State}
    (h : finishRegs i s r = .next s') (f : RaisedFault) :
    s'.fault = f.number ↔ r = .error f := by
  obtain ⟨g, rfl, rfl⟩ | ⟨s₁, rfl, rfl⟩ := finishRegs_next_cases h
  · simp [RaisedFault.number_inj]
  · simpa [FaultCode.number] using f.number_ne_zero.symm

/-! ### The fault condition of each command -/

/-- The condition under which reading the header in `IN` ends with the fault `f`
(42_header_codec.md R142, 45_frame_parser.md R181). -/
def RaisesInHeader (s : State) (f : RaisedFault) : Prop :=
  (f = .frameTruncated ∧ s.inBuf.length < 96) ∨
    (96 ≤ s.inBuf.length ∧ HeaderCodec.decodeHeader s.ct (slice s.inBuf 0 96) = .error f)

/-- The condition under which cutting the payload after a header of length `len` and code `c` ends with the
fault `f` (45_frame_parser.md R181, R183). -/
def RaisesInPayload (s : State) (len : Nat) (c : Code) (f : RaisedFault) : Prop :=
  Decoder.decode s.ct c s.payloadRegion = .error f ∨
    ∃ d, Decoder.decode s.ct c s.payloadRegion = .ok d ∧ f = .frameTruncated ∧ d.length < len

/-- The condition under which a command that is not refused raises the fault `f`
(60_exceptions.md R192 to R196). -/
def Raises (i : Instr) (s : State) (f : RaisedFault) : Prop :=
  match i with
  | .ctidx => f = .unsupportedCode ∧ 3 < s.code.toNat
  | .ctlen => f = .unsupportedCode ∧
      s.n.toNat ≠ 3 ∧ s.n.toNat ≠ 7 ∧ s.n.toNat ≠ 15 ∧ s.n.toNat ≠ 31
  | .encode => f = .unsupportedCode ∧ 3 < s.code.toNat
  | .hdrbld => (f = .unsupportedCode ∧ 3 < s.code.toNat) ∨
      (f = .valueOutOfRange ∧ s.code.toNat ≤ 3 ∧ 65535 < s.len.toNat)
  | .hdrenc => False
  | .hdrdec => RaisesInHeader s f
  | .frmbld => (f = .unsupportedCode ∧ 3 < s.code.toNat) ∨
      (f = .valueOutOfRange ∧ s.code.toNat ≤ 3 ∧ 65535 < s.inBuf.length)
  | .decode => (f = .unsupportedCode ∧ 3 < s.code.toNat) ∨
      ∃ c : Code, s.code.toNat = c.index ∧ Decoder.decode s.ct c s.inBuf = .error f
  | .frmprs => RaisesInHeader s f ∨ (96 ≤ s.inBuf.length ∧ ∃ len c,
      HeaderCodec.decodeHeader s.ct (slice s.inBuf 0 96) = .ok (len, c) ∧ RaisesInPayload s len c f)

/-- The common beginning of HDRDEC and FRMPRS, and then any `g`. -/
theorem header_bind_eq_error {s : State} {α : Type} {g : Nat × Code → Except RaisedFault α}
    {f : RaisedFault} :
    (s.headerRegion >>= fun e => HeaderCodec.decodeHeader s.ct e >>= g) = .error f ↔
      RaisesInHeader s f ∨ (96 ≤ s.inBuf.length ∧ ∃ len c,
        HeaderCodec.decodeHeader s.ct (slice s.inBuf 0 96) = .ok (len, c) ∧ g (len, c) = .error f) := by
  by_cases hl : 96 ≤ s.inBuf.length
  · rw [State.headerRegion_eq_slice hl]
    simp [RaisesInHeader, hl, Nat.not_lt.mpr hl, Except.bind_eq_error]
  · rw [State.headerRegion_eq_error.mpr ⟨rfl, Nat.not_le.mp hl⟩]
    simp [RaisesInHeader, hl, Nat.not_le.mp hl, bind, Except.bind, eq_comm]

/-- The common beginning of the commands that read `CODE`, and then any `g`. -/
theorem codeOperand_bind_eq_error {s : State} {α : Type} {g : Code → Except RaisedFault α}
    {f : RaisedFault} :
    (s.codeOperand >>= g) = .error f ↔ (f = .unsupportedCode ∧ 3 < s.code.toNat) ∨
      ∃ c : Code, s.code.toNat = c.index ∧ g c = .error f := by
  simp only [Except.bind_eq_error, State.codeOperand_eq_error, State.codeOperand_eq_ok]

/-- A command that goes on with a code, under a condition that does not depend on the code. -/
theorem exists_code_and_iff {i : Nat} {p : Prop} : (∃ c : Code, i = c.index ∧ p) ↔ i ≤ 3 ∧ p := by
  rw [exists_and_right]
  exact and_congr_left' ⟨fun ⟨c, hc⟩ => hc.le.trans c.index_le, Code.exists_index_eq⟩

/-- FAULT after a command says exactly which condition of R192 to R196 held. -/
theorem exec_fault_iff {i : Instr} {s s' : State} (h : exec i s = .next s') (f : RaisedFault) :
    s'.fault.toNat = f.number.toNat ↔ Raises i s f := by
  rw [BitVec.toNat_inj]
  cases i <;> obtain ⟨-, h⟩ := whenReady_eq_next.mp h
  case ctidx =>
    rw [finishRegs_fault_iff h, codeOperand_bind_eq_error]
    simp [Raises, pure, Except.pure]
  case ctlen =>
    rw [finishRegs_fault_iff h, Except.bind_eq_error, State.lengthOperand_eq_error]
    simp [Raises, pure, Except.pure]
  case encode =>
    rw [finishOut_fault_iff h, codeOperand_bind_eq_error]
    simp [Raises, pure, Except.pure]
  case hdrbld =>
    rw [finishOut_fault_iff h, HeaderCodec.buildHeader_eq_error]
    rfl
  case hdrenc =>
    split at h
    · rw [finishOut_fault_iff h]
      simp [Raises]
    · cases h
  case hdrdec =>
    rw [finishRegs_fault_iff h, header_bind_eq_error]
    simp [Raises, pure, Except.pure]
  case frmbld =>
    rw [finishOut_fault_iff h, codeOperand_bind_eq_error]
    simp only [FrameAssembler.buildFrame_eq_error, exists_code_and_iff, Raises]
    rw [and_left_comm]
  case decode => rw [finishOut_fault_iff h, codeOperand_bind_eq_error, Raises]
  case frmprs =>
    rw [finishOut_fault_iff h, header_bind_eq_error]
    simp only [Except.bind_eq_error, FrameParser.cut_eq_error, Raises, RaisesInPayload]

/-- A command never raises a fault outside its row of 10_state.md R33. -/
theorem not_raises_of_notMem {i : Instr} {s s' : State} (h : exec i s = .next s') {f : RaisedFault}
    (hf : f.number.toNat ∉ faultCodesOf i) : ¬ Raises i s f := fun hr =>
  hf ((exec_fault_iff h f).mpr hr ▸ exec_fault_mem h)

/-! ### Each fault of the parts -/

theorem Decoder.decode_eq_frameTruncated {t : CodeTable} {c : Code} {e : Bits} :
    Decoder.decode t c e = .error .frameTruncated ↔ e.length % c.n ≠ 0 := by
  refine ⟨fun h => ?_, Decoder.decode_of_mod_ne⟩
  simpa using Decoder.decode_error h

theorem Decoder.decode_ne_unsupportedCode {t : CodeTable} {c : Code} {e : Bits} :
    Decoder.decode t c e ≠ .error .unsupportedCode := fun h => by simpa using Decoder.decode_error h

theorem Decoder.decode_ne_headerCorrupt {t : CodeTable} {c : Code} {e : Bits} :
    Decoder.decode t c e ≠ .error .headerCorrupt := fun h => by simpa using Decoder.decode_error h

/-- `val` of 16 bits of a sequence, as the weighted sum of 00_scope.md R12. -/
theorem val_slice_eq_sum {h : Bits} {a : Nat} (ha : a + 16 ≤ h.length) :
    val (slice h a (a + 16)) =
      (Finset.range 16).sum fun i => (bitAt h (a + i)).toNat * 2 ^ (15 - i) := by
  have hl : (slice h a (a + 16)).length = 16 := by rw [slice_length_of_le ha]; omega
  rw [val_eq_sum, hl]
  refine Finset.sum_congr rfl fun i hi => ?_
  have hi := Finset.mem_range.mp hi
  rw [bitAt_slice, if_pos (by omega)]

/-- HeaderCorrupt in a header region: the field of 16 bits after the first 16 is above 3. -/
theorem HeaderCodec.decodeHeader_eq_headerCorrupt {t : CodeTable} {e : Bits} (he : e.length = 96) :
    HeaderCodec.decodeHeader t e = .error .headerCorrupt ↔
      ∃ h, Decoder.decode t .repetition3_1 e = .ok h ∧
        3 < (Finset.range 16).sum fun i => (bitAt h (16 + i)).toNat * 2 ^ (15 - i) := by
  rw [HeaderCodec.decodeHeader_eq_error, or_iff_right Decoder.decode_ne_headerCorrupt]
  refine exists_congr fun h => and_congr_right fun hd => ?_
  have hl : h.length = 32 := by rw [Decoder.decode_length hd, he]; rfl
  rw [← val_slice_eq_sum (by omega), eq_self, true_and]

/-- A header region of 96 bits tiles, so only its length can truncate it. -/
theorem HeaderCodec.decodeHeader_ne_frameTruncated {t : CodeTable} {e : Bits} (he : e.length = 96) :
    HeaderCodec.decodeHeader t e ≠ .error .frameTruncated := by
  rw [Ne, HeaderCodec.decodeHeader_eq_error, Decoder.decode_eq_frameTruncated, he]
  simp [hdrCode, Code.n]

theorem raisesInHeader_frameTruncated {s : State} :
    RaisesInHeader s .frameTruncated ↔ s.inBuf.length < 96 := by
  refine ⟨fun h => ?_, fun h => .inl ⟨rfl, h⟩⟩
  obtain ⟨-, h⟩ | ⟨hl, h⟩ := h
  · exact h
  · exact absurd h (HeaderCodec.decodeHeader_ne_frameTruncated (slice_length_of_le hl))

theorem raisesInHeader_headerCorrupt {s : State} :
    RaisesInHeader s .headerCorrupt ↔ 96 ≤ s.inBuf.length ∧
      ∃ h, Decoder.decode s.ct .repetition3_1 (slice s.inBuf 0 96) = .ok h ∧
        3 < (Finset.range 16).sum fun i => (bitAt h (16 + i)).toNat * 2 ^ (15 - i) := by
  rw [RaisesInHeader, or_iff_right (by simp)]
  exact and_congr_right fun hl =>
    HeaderCodec.decodeHeader_eq_headerCorrupt (slice_length_of_le hl)

theorem State.payloadRegion_eq_slice {s : State} (hl : 96 ≤ s.inBuf.length) :
    s.payloadRegion = slice s.inBuf 96 s.inBuf.length :=
  congrArg (slice s.inBuf 96) (Nat.add_sub_cancel' hl)

theorem raisesInPayload_frameTruncated {s : State} (hl : 96 ≤ s.inBuf.length) {len : Nat} {c : Code} :
    RaisesInPayload s len c .frameTruncated ↔ (s.inBuf.length - 96) % c.n ≠ 0 ∨
      ∃ d, Decoder.decode s.ct c (slice s.inBuf 96 s.inBuf.length) = .ok d ∧ d.length < len := by
  rw [RaisesInPayload, State.payloadRegion_eq_slice hl, Decoder.decode_eq_frameTruncated,
    slice_length_of_le le_rfl]
  simp only [true_and]

theorem raisesInPayload_headerCorrupt {s : State} {len : Nat} {c : Code} :
    ¬ RaisesInPayload s len c .headerCorrupt := by
  rintro (h | ⟨d, -, h, -⟩)
  · exact Decoder.decode_ne_headerCorrupt h
  · cases h

/-! ### The statements -/

/-- Settles O18: the commands that read `CODE`, CTLEN, and the three that cannot raise the fault. -/
theorem unsupportedCodeExactly : Obligations.UnsupportedCodeExactly := by
  intro i s s' h
  refine (exec_fault_iff h .unsupportedCode).trans ?_
  cases i
  case hdrenc | hdrdec | frmprs => exact iff_of_false (not_raises_of_notMem h (by decide)) (by simp)
  case decode => simp [Raises, Decoder.decode_ne_unsupportedCode]
  all_goals simp [Raises]

/-- Settles O19: HDRBLD and FRMBLD, and the seven that cannot raise the fault. -/
theorem valueOutOfRangeExactly : Obligations.ValueOutOfRangeExactly := by
  intro i s s' h
  refine (exec_fault_iff h .valueOutOfRange).trans ?_
  cases i
  case hdrbld | frmbld => simp [Raises, and_comm]
  all_goals exact iff_of_false (not_raises_of_notMem h (by decide)) (by simp)

/-- Settles O20: HDRDEC and FRMPRS raise the fault in the header alone; the other seven cannot. -/
theorem headerCorruptExactly : Obligations.HeaderCorruptExactly := by
  intro i s s' h
  refine (exec_fault_iff h .headerCorrupt).trans ?_
  cases i
  case hdrdec => simp [Raises, raisesInHeader_headerCorrupt]
  case frmprs => simp [Raises, raisesInHeader_headerCorrupt, raisesInPayload_headerCorrupt]
  all_goals exact iff_of_false (not_raises_of_notMem h (by decide)) (by simp)

/-- Settles O21: DECODE, the header of HDRDEC and FRMPRS, the payload of FRMPRS, and the six that cannot
raise the fault. -/
theorem frameTruncatedExactly : Obligations.FrameTruncatedExactly := by
  intro i s s' h
  refine (exec_fault_iff h .frameTruncated).trans ?_
  cases i
  case decode => simp [Raises, Decoder.decode_eq_frameTruncated]
  case hdrdec => simp [Raises, raisesInHeader_frameTruncated]
  case frmprs =>
    rw [Raises, raisesInHeader_frameTruncated, and_congr_right fun hl => exists₂_congr fun len c =>
      and_congr_right fun _ => raisesInPayload_frameTruncated hl]
    simp
  all_goals exact iff_of_false (not_raises_of_notMem h (by decide)) (by simp)

end Sys2Proof.Machine

/-! SUPPORT. The statement of 70_reset_and_hazards.md: a block that is not ready stays so until a reset with a
valid table (R222), with the lemmas it rests on. -/

namespace Sys2Proof.Machine

/-! ### READY after a reset -/

@[simp] theorem State.resetWith_ready (ct : CodeTable) (cap : Option Nat) :
    (State.resetWith ct cap).ready = ct.valid :=
  Status.ready_atReset ct.valid

@[simp] theorem State.applyReset_ready (s : State) (ct : CodeTable) : (s.applyReset ct).ready = ct.valid :=
  State.resetWith_ready ct s.mem.cap

/-! ### A block that is not ready -/

theorem exec_of_not_ready {s : State} (h : s.ready = false) (i : Instr) : exec i s = .refused .notReady := by
  cases i <;> exact whenReady_of_not_ready h _

/-- A line that still completes performs no command, so it is a host write or a comparison, and neither of
these touches `STATUS` (10_state.md R34). -/
theorem performLine_keeps_not_ready {l : Line} {s s' : State} (hr : s.ready = false)
    (h : performLine l s = .next s') : s'.ready = false := by
  obtain ⟨i, s₁, hs₁, hi⟩ | hwrite := performLine_next_cases h
  · have hr₁ : s₁.ready = false := by obtain rfl | ⟨v, rfl⟩ | ⟨v, rfl⟩ := hs₁ <;> exact hr
    rw [exec_of_not_ready hr₁] at hi
    cases hi
  · obtain ⟨v, -, rfl⟩ | ⟨v, rfl⟩ | ⟨v, rfl⟩ | ⟨v, rfl⟩ | ⟨v, rfl⟩ | ⟨b, rfl⟩ := hwrite <;> exact hr

theorem step_keeps_not_ready {s s' : State} (hr : s.ready = false) (h : step s = .next s') :
    s'.ready = false := by
  obtain ⟨-, rfl⟩ | ⟨l, rest, -, hl⟩ := step_next_cases h
  · exact hr
  · exact performLine_keeps_not_ready (s := s.advance rest) hr hl

/-! ### The statement -/

/-- Settles O13: every command is behind READY, no line that still completes writes it, and a reset sets it
to the validity of the table. -/
theorem notReadyRefusesEveryCommandForGood : Obligations.NotReadyRefusesEveryCommandForGood := by
  refine ⟨fun ct cap hct => ?_, fun s hr => ⟨?_, ?_, ?_⟩⟩
  · rw [State.resetWith_ready, hct]
  · exact exec_of_not_ready hr
  · exact fun s' => step_keeps_not_ready hr
  · exact s.applyReset_ready

end Sys2Proof.Machine

/-! SUPPORT. What every line and every step keeps: the statements of 10_state.md sections 3 to 9 on the
invariant, the table, the capacity, READY and the script, with the lemmas they rest on. -/

namespace Sys2Proof.Machine

open Sys2Proof.Claim

/-! ### READY and the reserved bits stand in `STATUS[7:3]` -/

theorem Status.ready_eq_of_upper {st st' : Byte} (h : st'.extractLsb' 3 5 = st.extractLsb' 3 5) :
    Status.ready st' = Status.ready st := by
  have hbit (x : Byte) : Status.ready x = (x.extractLsb' 3 5).getLsbD 4 := by
    simp [Status.ready]
  rw [hbit, hbit, h]

theorem Status.reserved_eq_of_upper {st st' : Byte} (h : st'.extractLsb' 3 5 = st.extractLsb' 3 5) :
    Status.reserved st' = Status.reserved st := by
  have hbits (x : Byte) : Status.reserved x = (x.extractLsb' 3 5).extractLsb' 0 4 := by
    unfold Status.reserved; ext i hi; simp [Nat.add_comm]; omega
  rw [hbits, hbits, h]

/-! ### What a line and a step leave unchanged -/

/-- What no line and no command writes: the table, the capacity, `STATUS[7:3]` and the script. -/
def SameFrame (s s' : State) : Prop :=
  s'.ct = s.ct ∧ s'.mem.cap = s.mem.cap ∧ s'.status.extractLsb' 3 5 = s.status.extractLsb' 3 5 ∧
    s'.script = s.script ∧ s'.line = s.line

theorem exec_sameFrame {i : Instr} {s s' : State} (h : exec i s = .next s') : SameFrame s s' := by
  obtain ⟨hct, -, hcap, hupper, hscript, hline, -⟩ := exec_onlyWriteSet h
  exact ⟨hct, hcap, hupper, hscript, hline⟩

theorem performLine_sameFrame {l : Line} {s s' : State} (h : performLine l s = .next s') :
    SameFrame s s' := by
  obtain ⟨i, s₁, hs₁, hi⟩ | hwrite := performLine_next_cases h
  · have hframe := exec_sameFrame hi
    obtain rfl | ⟨v, rfl⟩ | ⟨v, rfl⟩ := hs₁ <;> exact hframe
  · obtain ⟨v, -, rfl⟩ | ⟨v, rfl⟩ | ⟨v, rfl⟩ | ⟨v, rfl⟩ | ⟨v, rfl⟩ | ⟨b, rfl⟩ := hwrite <;>
      exact ⟨rfl, rfl, rfl, rfl, rfl⟩

/-- Settles O12: an idle step changes nothing, and no line writes any of the three. -/
theorem tableCapacityAndReadyNeverChange : Obligations.TableCapacityAndReadyNeverChange := by
  intro s s' h
  obtain ⟨-, rfl⟩ | ⟨l, rest, -, hl⟩ := step_next_cases h
  · exact ⟨rfl, rfl, rfl⟩
  · obtain ⟨hct, hcap, hupper, -⟩ := performLine_sameFrame hl
    exact ⟨hct, hcap, hupper⟩

/-- Settles O58: the host takes the line off before it is performed, and no line touches the script. -/
theorem everyLineAdvancesTheScriptByOne : Obligations.EveryLineAdvancesTheScriptByOne := by
  intro s s' l rest hs h
  rw [step_of_script hs] at h
  obtain ⟨-, -, -, hscript, hline⟩ := performLine_sameFrame h
  exact ⟨hscript, hline⟩

/-! ### The invariant -/

theorem le_five_of_mem_faultCodesOf {i : Instr} {m : Nat} (h : m ∈ faultCodesOf i) : m ≤ 5 := by
  have hall : ∀ i, ∀ m ∈ faultCodesOf i, m ≤ 5 := by intro i; cases i <;> decide
  exact hall i m h

theorem ResultRegs.mem_eq {i : Instr} {s s₁ : State} (h : ResultRegs i s s₁) : s₁.mem = s.mem := by
  cases i <;> simp only [ResultRegs] at h
  case ctidx | ctlen => obtain ⟨c, rfl⟩ := h; rfl
  case hdrdec => obtain ⟨len, c, rfl⟩ := h; rfl

/-- No command leaves a buffer longer than `CAP` (10_state.md R25). -/
theorem exec_keeps_wf {i : Instr} {s s' : State} (hw : s.mem.wf = true) (h : exec i s = .next s') :
    s'.mem.wf = true := by
  obtain ⟨-, ⟨f, rfl⟩ | ⟨-, v, hv, rfl⟩ | ⟨s₁, h₁, rfl⟩⟩ := exec_next_cases h
  · exact Memory.wf_takeFault i f hw
  · exact Memory.wf_setOut hw hv
  · rw [State.setFault_mem, h₁.mem_eq, hw]

theorem exec_keeps_inv {i : Instr} {s s' : State} (hs : s.Inv) (h : exec i s = .next s') : s'.Inv := by
  obtain ⟨hwf, hready, hreserved, -⟩ := hs
  obtain ⟨hct, -, hupper, -⟩ := exec_sameFrame h
  refine ⟨exec_keeps_wf hwf h, ?_, ?_, le_five_of_mem_faultCodesOf (exec_fault_mem h)⟩
  · rw [hct, ← hready]; exact Status.ready_eq_of_upper hupper
  · rw [← hreserved]; exact Status.reserved_eq_of_upper hupper

theorem performLine_keeps_inv {l : Line} {s s' : State} (hs : s.Inv) (h : performLine l s = .next s') :
    s'.Inv := by
  obtain ⟨i, s₁, hs₁, hi⟩ | ⟨v, hv, rfl⟩ | hreg := performLine_next_cases h
  · have hinv : s₁.Inv := by obtain rfl | ⟨v, rfl⟩ | ⟨v, rfl⟩ := hs₁ <;> exact hs
    exact exec_keeps_inv hinv hi
  · obtain ⟨hwf, hrest⟩ := hs
    exact ⟨Memory.wf_setIn hwf hv, hrest⟩
  · obtain ⟨v, rfl⟩ | ⟨v, rfl⟩ | ⟨v, rfl⟩ | ⟨v, rfl⟩ | ⟨b, rfl⟩ := hreg <;> exact hs

/-- Settles O11: an idle step keeps the state, and every line keeps the invariant, which does not speak of
the script. -/
theorem everyStepKeepsTheInvariant : Obligations.EveryStepKeepsTheInvariant := by
  intro s s' hs h
  obtain ⟨-, rfl⟩ | ⟨l, rest, -, hl⟩ := step_next_cases h
  · exact hs
  · exact performLine_keeps_inv (s := s.advance rest) hs hl

/-- The default table is valid (40_codetable.md R109). -/
theorem CodeTable.valid_refTable : refTable.valid = true := by decide +kernel

/-- READY is written out in `State.reset`, because the default table is valid. -/
theorem State.reset_eq_resetWith : State.reset = State.resetWith refTable none := by
  rw [State.resetWith, CodeTable.valid_refTable]; rfl

theorem State.resetWith_inv (ct : CodeTable) (cap : Option Nat) : (State.resetWith ct cap).Inv := by
  have hfault : (State.resetWith ct cap).fault = 0 := Status.fault_atReset ct.valid
  refine ⟨?_, State.resetWith_ready ct cap, Status.reserved_atReset ct.valid, ?_⟩
  · exact Bool.and_eq_true_iff.mpr ⟨Memory.holds_zero _, Memory.holds_zero _⟩
  · rw [hfault]; decide

/-- Settles O10: a reset of a running block differs from a reset at start in the script alone. -/
theorem resetMeetsTheInvariant : Obligations.ResetMeetsTheInvariant := by
  refine ⟨State.resetWith_inv, fun s ct => State.resetWith_inv ct s.mem.cap, ?_⟩
  rw [State.reset_eq_resetWith]
  exact State.resetWith_inv refTable none

/-! ### The next line -/

/-- Settles O9: `step` with an empty script. -/
theorem idleBlockKeepsItsState : Obligations.IdleBlockKeepsItsState := by
  intro s hs
  simp [step, hs]

/-- A byte is its own table word (log entry 16). -/
theorem tableWord_toNat (w : Byte) : tableWord 8 w.toNat = w := by
  rw [tableWord, Nat.mod_eq_of_lt w.isLt, BitVec.ofNat_toNat, BitVec.setWidth_eq]

/-- A step on a command word performs the command it decodes to. -/
theorem step_of_command {s : State} {w : Byte} {rest : Script} {i : Instr}
    (hs : s.script = .command w :: rest) (hw : Sys2Proof.decode w = .ok i) :
    step s = exec i (s.advance rest) := by
  rw [step_of_script hs]
  exact sendWord_of_decode hw (s.advance rest)

/-- Settles O7: the next line is performed in the state in which it has been taken off. -/
theorem stepPerformsTheDecodedCommand : Obligations.StepPerformsTheDecodedCommand := by
  refine ⟨fun s w rest i hs hw => step_of_command hs hw, fun s l rest hs => step_of_script hs,
    fun s w i hw => ?_⟩
  have hscript : (s.withFetchWord 8 w.toNat).script = .command w :: s.script := by
    simp [State.withFetchWord, tableWord_toNat]
  exact step_of_command hscript hw

/-- Settles O56: an idle step answers a state, and of the lines only a FLIP outside `IN` faults. -/
theorem onlyFlipOutsideInStopsTheModel : Obligations.OnlyFlipOutsideInStopsTheModel := by
  intro s e
  cases hs : s.script with
  | nil => simp [step, hs]
  | cons l rest =>
    rw [step_of_script hs, performLine_eq_fault]
    simp [and_assoc]

end Sys2Proof.Machine

/-! SUPPORT. The statements on the host's lines (30_encoding.md section 5, R91 and R92), with the lemmas
they rest on. -/

namespace Sys2Proof.Machine

open Sys2Proof.Claim

/-- A host write to `IN` that fits. -/
theorem hostWriteIn_of_fits {s : State} {v : Bits} (h : Fits s v.length) :
    hostWriteIn v s = .next (s.setIn v) :=
  hostWriteIn_eq_next.mpr ⟨(Memory.holds_iff _ _).mpr h, rfl⟩

/-- Settles O54: a write to `IN` is held against the capacity, and every other line is its own update. -/
theorem hostActionsWriteAndCompare : Obligations.HostActionsWriteAndCompare := fun _ =>
  ⟨fun _ => hostWriteIn_of_fits, fun _ => rfl, fun _ => rfl, fun _ => rfl, fun _ => rfl,
    fun _ _ => ⟨_, rfl⟩, fun _ => rfl, fun _ => rfl, fun _ => rfl, fun _ => rfl, fun _ => rfl,
    fun _ => rfl, fun _ => rfl⟩

theorem performLine_flip_of_lt {s : State} {p : Nat} (hp : p < s.inBuf.length) :
    performLine (.flip p) s = hostWriteIn (flipBit s.inBuf p) s := if_pos hp

/-- Settles O55: LOOPBACK and FLIP are writes to `IN`, and SELLEN and SELIDX send the words of CTLEN and
CTIDX. -/
theorem pseudoLinesDoTheirExpansion : Obligations.PseudoLinesDoTheirExpansion := by
  refine fun s => ⟨hostWriteIn_of_fits, fun p hp hf => ⟨flipBit s.inBuf p, ?_, flipBit_length _ _,
    bitAt_flipBit hp⟩, fun n => ?_, fun c => ?_⟩
  · rw [performLine_flip_of_lt hp]
    exact hostWriteIn_of_fits (by simpa using hf)
  · exact (sendWord_of_decode (decode_encode .ctlen) (s.setN n)).symm
  · exact (sendWord_of_decode (decode_encode .ctidx) (s.setCode c)).symm

/-- Settles O57: a line that sends no command writes `IN` or a register the host may write, or compares. -/
theorem hostWritesNeitherOutNorStatusNorTable : Obligations.HostWritesNeitherOutNorStatusNorTable := by
  intro l s s' hcommand hlen hidx h
  have hin : ∀ v, hostWriteIn v s = .next s' →
      s'.outBuf = s.outBuf ∧ s'.status = s.status ∧ s'.ct = s.ct ∧ s'.mem.cap = s.mem.cap := by
    intro v hv
    obtain ⟨-, rfl⟩ := hostWriteIn_eq_next.mp hv
    exact ⟨rfl, rfl, rfl, rfl⟩
  cases l
  case command w => exact absurd rfl (hcommand w)
  case selLen n => exact absurd rfl (hlen n)
  case selIdx c => exact absurd rfl (hidx c)
  case setIn v => exact hin v h
  case loopback => exact hin s.outBuf h
  case flip p =>
    by_cases hp : p < s.inBuf.length
    · exact hin _ (performLine_flip_of_lt hp ▸ h)
    · have hfault := performLine_eq_fault.mpr ⟨rfl, p, rfl, Nat.not_lt.mp hp⟩
      rw [hfault] at h
      cases h
  all_goals
    cases h
    exact ⟨rfl, rfl, rfl, rfl⟩

end Sys2Proof.Machine

/-! SUPPORT. The statements on the command words (30_encoding.md section 1) and on the table
(40_codetable.md sections 1, 3 and 4), with the lemmas they rest on. -/

namespace Sys2Proof

/-- A well-formed word is one of the nine of 30_encoding.md R71. -/
theorem mem_commandWords_of_wf {w : Byte} (h : (fieldsOf w).wf = true) : w ∈ commandWords := by
  revert w; decide +kernel

theorem exists_encode_of_mem_commandWords {w : Byte} (h : w ∈ commandWords) : ∃ i, encode i = w := by
  obtain ⟨r, hr, hw⟩ := List.mem_map.mp h
  exact ⟨r.instr, (encode_instr_of_mem hr).trans hw⟩

theorem fieldsOf_encode_wf (i : Instr) : (fieldsOf (encode i)).wf = true := by cases i <;> decide

theorem encode_eq_fields (i : Instr) : encode i = i.fields.unit ++ i.fields.func := by cases i <;> decide

/-- Settles O6: a word decodes exactly when it is the word of a command, and those are the words with
well-formed fields. -/
theorem decodeAndEncodeAgree : Obligations.DecodeAndEncodeAgree := by
  refine ⟨fun i _ => decode_encode i, fun w i => decode_eq_ok_iff.mp, encode_eq_fields, fun w => ?_⟩
  simp only [decode_eq_ok_iff]
  constructor
  · rintro ⟨i, rfl⟩
    exact fieldsOf_encode_wf i
  · exact fun h => exists_encode_of_mem_commandWords (mem_commandWords_of_wf h)

end Sys2Proof

namespace Sys2Proof.Machine

open Sys2Proof.Claim

/-- Settles O3: `byIndex` and `byLength` find exactly the index and the length of each code. -/
theorem lookupsAreExactAndInverse : Obligations.LookupsAreExactAndInverse := by
  refine ⟨rfl, fun c => ⟨c.mem_all, rfl⟩, fun _ _ => Code.byIndex_eq_some, fun i => ?_,
    fun _ _ => Code.byLength_eq_some, fun m => ?_, fun c => ?_⟩
  · rw [Code.byIndex_eq_none]; simp [params]; omega
  · rw [Code.byLength_eq_none]; simp [params]
  · rw [Code.byLength_n, Code.byIndex_index]

/-- Settles O2: READY of `State.reset` is that of the default table, whose eight matrices evaluate to those
written out. -/
theorem resetHoldsTheWrittenReferenceTable : Obligations.ResetHoldsTheWrittenReferenceTable := by
  refine ⟨State.reset_eq_resetWith, CodeTable.valid_refTable, ?_, ?_, ?_, ?_, ?_, ?_, ?_, ?_⟩ <;>
    decide +kernel

/-- Settles O48: the columns are all the nonzero sequences, each once. -/
theorem everyNonzeroSyndromeIsOneColumn : Obligations.EveryNonzeroSyndromeIsOneColumn := by
  intro t c y h hy hz
  obtain ⟨p, hp, hl, hcol⟩ := Decoder.exists_locate h hy hz
  exact ⟨p, hp, hcol, hl, fun q hq hq' => CodeTable.col_injective h hq hp (hq'.trans hcol.symm)⟩

/-- Settles O49: a block with the zero syndrome is the codeword of its data bits. -/
theorem syndromeIsZeroExactlyOnCodewords : Obligations.SyndromeIsZeroExactlyOnCodewords := by
  intro t c b h hb
  constructor
  · intro hz
    exact ⟨Decoder.extract c b, Decoder.extract_length hb, Decoder.eq_encBlock_of_syndrome h hb hz⟩
  · rintro ⟨d, -, rfl⟩
    exact Decoder.syndrome_encBlock h c d

/-- Condition (a): the generator matrix is `k x n` (40_codetable.md R104). -/
theorem CodeTable.gen_shape {t : CodeTable} (h : t.valid = true) (c : Code) :
    (t.gen c).length = c.k ∧ ∀ row ∈ t.gen c, row.length = c.n := by
  obtain ⟨⟨hrows, hcols, -⟩, -⟩ := validTablesAreThoseOfTheSpec t |>.mp h c
  exact ⟨hrows, hcols⟩

/-- Settles O50: one row of three bits, each of them 1. -/
theorem validityForcesTheRepetitionCode : Obligations.ValidityForcesTheRepetitionCode := by
  intro t h
  obtain ⟨hrows, hcols⟩ := CodeTable.gen_shape h .repetition3_1
  obtain ⟨row, hrow⟩ := List.length_eq_one_iff.mp hrows
  have hlen : row.length = 3 := hcols row (by simp [hrow])
  have hbit : ∀ j, j < 3 → bitAt row j = true := fun j hj => by
    have := CodeTable.gen_repetition h hj
    rwa [hrow] at this
  have hones : ∀ j, j < 3 → bitAt [true, true, true] j = true := by decide
  rw [hrow, bits_ext (t := [true, true, true]) hlen fun j hj => ?_]
  rw [hbit j (hlen ▸ hj), hones j (hlen ▸ hj)]

end Sys2Proof.Machine

/-! SUPPORT. The statements on every command at once: idempotence (20_memory.md R58), the refusals
(60_exceptions.md R207), UncorrectableBlock (R195, 44_decoder.md R170), and independence of the parity-check
matrix (40_codetable.md R108), with the lemmas they rest on. -/

namespace Sys2Proof.Machine

open Sys2Proof.Claim

/-! ### A command issued again -/

@[simp] theorem Status.withFault_fault (st : Byte) : Status.withFault st (Status.fault st) = st := by
  revert st; decide +kernel

/-- `STATUS` is its upper five bits and its fault field. -/
theorem Status.eq_of_upper_of_fault {st st' : Byte} (hu : st'.extractLsb' 3 5 = st.extractLsb' 3 5)
    (hf : Status.fault st' = Status.fault st) : st' = st := by
  rw [← Status.withFault_fault st', ← Status.withFault_fault st, Status.withFault, Status.withFault, hu, hf]

/-- To write the fault that stands there already changes nothing. -/
@[simp] theorem faultKeep_fault (s : State) : faultKeep s s.fault.toNat = s := by
  rw [faultKeep, ← Status.withFault_eq_mask, State.fault, Status.withFault_fault]

/-- No command writes what it reads (10_state.md R33). -/
theorem exec_keeps_readSet {i : Instr} {s s' : State} (h : exec i s = .next s') : SameReads i s s' := by
  obtain ⟨hct, hin, hcap, hupper, -, -, -, hn, hk, hcode, hlen, -⟩ := exec_onlyWriteSet h
  refine ⟨(Status.ready_eq_of_upper hupper).symm, hcap.symm, ?_⟩
  cases i
  case ctidx => exact ⟨(hcode (by decide)).symm, hct.symm⟩
  case ctlen => exact ⟨(hn (by decide)).symm, hct.symm⟩
  case hdrbld => exact ⟨(hlen (by decide)).symm, (hcode (by decide)).symm⟩
  case hdrenc | hdrdec | frmprs => exact ⟨hin.symm, hct.symm⟩
  case encode | frmbld | decode => exact ⟨hin.symm, (hcode (by decide)).symm, hct.symm⟩

/-- Two states that agree outside the write set of a command, in its results and in FAULT, are equal. -/
theorem State.eq_of_sameResults {i : Instr} {s t : State} (hw : OnlyWriteSet i s t)
    (hf : t.fault = s.fault) (hr : SameResults i s t) : t = s := by
  obtain ⟨hct, hin, hcap, hupper, hscript, hline, hheld, hn, hk, hcode, hlen, hout⟩ := hw
  have hstatus := Status.eq_of_upper_of_fault hupper hf
  have hregs : t.n = s.n ∧ t.k = s.k ∧ t.code = s.code ∧ t.len = s.len ∧ t.outBuf = s.outBuf := by
    cases i <;> simp_all [SameResults, outWriters]
  obtain ⟨hn, hk, hcode, hlen, hout⟩ := hregs
  obtain ⟨ct, ⟨inBuf, outBuf, cap⟩, code, n, k, len, status, script, line, held⟩ := s
  obtain ⟨ct', ⟨inBuf', outBuf', cap'⟩, code', n', k', len', status', script', line', held'⟩ := t
  simp_all [State.inBuf, State.outBuf]

/-- Settles O16: the command reads the same and so answers a state with the same FAULT; without a fault the
results are the same, and after a fault nothing else was written. -/
theorem commandsAreIdempotent : Obligations.CommandsAreIdempotent := by
  intro i s s' h
  obtain ⟨s'', h'', hfault, hresults⟩ := (exec_sameAnswer (exec_keeps_readSet h)).exists_next h
  suffices s'' = s' by rw [h'', this]
  by_cases hz : s'.fault = 0
  · exact State.eq_of_sameResults (exec_onlyWriteSet h'') hfault (hresults hz)
  · have hz' : s'.fault.toNat ≠ 0 := fun h0 => hz (BitVec.eq_of_toNat_eq h0)
    have hs' := exec_eq_outFault_of_fault_ne_zero h hz'
    have hs'' := exec_eq_outFault_of_fault_ne_zero h'' (hfault ▸ hz')
    have hout : s'.outBuf = outAfterFault i s := by rw [hs']; rfl
    have houts : outAfterFault i s' = s'.outBuf := by
      unfold outAfterFault at hout ⊢
      split
      · rw [hout, if_pos ‹_›]
      · rfl
    rw [hs'', hfault, houts, outFault_outBuf, faultKeep_fault]

/-! ### The result of a command that writes `OUT` -/

/-- What a command that writes `OUT` puts there, or its fault (10_state.md R33); no bits for the three others. -/
def outResult (i : Instr) (s : State) : Except RaisedFault Bits :=
  match i with
  | .encode => return Encoder.encode s.ct (← s.codeOperand) s.inBuf
  | .hdrbld => HeaderCodec.buildHeader s.len.toNat s.code.toNat
  | .hdrenc => .ok (HeaderCodec.encodeHeader s.ct s.inBuf)
  | .frmbld => do FrameAssembler.buildFrame s.ct (← s.codeOperand) s.inBuf
  | .decode => do Decoder.decode s.ct (← s.codeOperand) s.inBuf
  | .frmprs => do
    let (len, c) ← HeaderCodec.decodeHeader s.ct (← s.headerRegion)
    FrameParser.cut len (← Decoder.decode s.ct c s.payloadRegion)
  | _ => .ok []

/-- The state with the result registers of a command written, or its fault (10_state.md R33); `s` itself for the
six commands that have none. -/
def regResult (i : Instr) (s : State) : Except RaisedFault State :=
  match i with
  | .ctidx => do
    let c ← s.codeOperand
    return (s.setN (BitVec.ofNat 16 c.n)).setK (BitVec.ofNat 16 c.k)
  | .ctlen => do
    let c ← s.lengthOperand
    return (s.setCode (BitVec.ofNat 16 c.index)).setK (BitVec.ofNat 16 c.k)
  | .hdrdec => do
    let (len, c) ← HeaderCodec.decodeHeader s.ct (← s.headerRegion)
    return (s.setLen (BitVec.ofNat 32 len)).setCode (BitVec.ofNat 16 c.index)
  | _ => .ok s

theorem exec_eq_finishRegs {i : Instr} {s : State} (hr : s.ready = true) (hw : i ∉ outWriters) :
    exec i s = finishRegs i s (regResult i s) := by
  cases i
  case ctidx | ctlen | hdrdec => exact whenReady_of_ready hr _
  all_goals exact absurd (by decide) hw

theorem exec_eq_finishOut {i : Instr} {s : State} (hr : s.ready = true) (hw : i ∈ outWriters)
    (hl : i = .hdrenc → s.inBuf.length = 32) : exec i s = finishOut i s (outResult i s) := by
  cases i
  case ctidx | ctlen | hdrdec => exact absurd hw (by decide)
  case hdrenc => exact (whenReady_of_ready hr _).trans (if_pos (hl rfl))
  all_goals exact whenReady_of_ready hr _

/-- A command that writes `OUT` and meets a fault. -/
theorem exec_of_outResult_error {i : Instr} {s : State} {f : RaisedFault} (hr : s.ready = true)
    (hw : i ∈ outWriters) (hi : i ≠ .hdrenc) (h : outResult i s = .error f) :
    exec i s = .next (outFault s [] f.number.toNat) := by
  rw [exec_eq_finishOut hr hw fun he => absurd he hi, h, finishOut_error hw]

/-- A command that writes `OUT` and has a result that fits. -/
theorem exec_of_outResult_ok {i : Instr} {s : State} {v : Bits} (hr : s.ready = true)
    (hw : i ∈ outWriters) (hi : i ≠ .hdrenc) (h : outResult i s = .ok v) (hf : Fits s v.length) :
    exec i s = .next (outFault s v 0) := by
  rw [exec_eq_finishOut hr hw fun he => absurd he hi, h, finishOut_ok hf]

/-! ### The refusals -/

theorem Memory.holds_eq_false_iff {m : Memory} {len : Nat} :
    m.holds len = false ↔ ∃ c, m.cap = some c ∧ c < len := by
  rw [← Bool.not_eq_true, Memory.holds_iff]
  push Not
  rfl

/-- A host write to `IN` is refused exactly when it is too long (10_state.md R25). -/
theorem hostWriteIn_refused_iff {v : Bits} {s : State} :
    hostWriteIn v s = .refused .overCapacity ↔ ∃ c, s.mem.cap = some c ∧ c < v.length := by
  rw [← Memory.holds_eq_false_iff]
  unfold hostWriteIn
  split <;> simp [*]

/-- `s` with an infinite capacity (00_scope.md R8). -/
def State.unbounded (s : State) : State := { s with mem := { s.mem with cap := none } }

/-- The result does not depend on the capacity. -/
theorem outResult_unbounded (i : Instr) (s : State) : outResult i s.unbounded = outResult i s := by
  cases i <;> rfl

theorem outBuf_takeFault {i : Instr} (hw : i ∈ outWriters) (s : State) (f : RaisedFault) :
    (s.takeFault i f).outBuf = [] := by
  rw [State.takeFault_eq_claim, outBuf_outFault, outAfterFault, if_pos hw]

/-- The end of a command that writes `OUT` is refused exactly when what it would write with no limit is too
long; a fault leaves nothing in `OUT` (log entry 19). -/
theorem finishOut_refused_iff {i : Instr} (hw : i ∈ outWriters) {s : State} {x : Except RaisedFault Bits} :
    (∃ r, finishOut i s x = .refused r) ↔ ∃ c t, s.mem.cap = some c ∧
      finishOut i s.unbounded x = .next t ∧ c < t.outBuf.length := by
  cases x with
  | error f =>
    refine iff_of_false (by simp [finishOut]) ?_
    rintro ⟨c, t, -, ht, hc⟩
    obtain rfl := Host.Outcome.next.inj ht
    simp [outBuf_takeFault hw] at hc
  | ok v =>
    have hfree : finishOut i s.unbounded (.ok v) =
        .next ((s.unbounded.setOut v).setFault .ok) := rfl
    have hrefused : (∃ r, finishOut i s (.ok v) = .refused r) ↔ s.mem.holds v.length = false := by
      simp only [finishOut]
      split <;> simp [*]
    rw [hrefused, Memory.holds_eq_false_iff, hfree]
    simp

/-- A command is refused exactly in the three cases (b), (c), (d) of R207. -/
theorem exec_refused_iff (i : Instr) (s : State) : (∃ r, exec i s = .refused r) ↔
    s.ready = false ∨ (i = .hdrenc ∧ s.inBuf.length ≠ 32) ∨
    (i ∈ outWriters ∧ ∃ c t, s.mem.cap = some c ∧
      exec i s.unbounded = .next t ∧ c < t.outBuf.length) := by
  cases hr : s.ready with
  | false => simp [exec_of_not_ready hr]
  | true =>
    by_cases hl : i = .hdrenc ∧ s.inBuf.length ≠ 32
    · obtain ⟨rfl, hl⟩ := hl
      simp [exec_hdrenc_of_not_length hr hl, hl]
    · by_cases hw : i ∈ outWriters
      · have hl' : i = .hdrenc → s.inBuf.length = 32 := by simpa using hl
        rw [exec_eq_finishOut hr hw hl', exec_eq_finishOut (s := s.unbounded) hr hw hl',
          outResult_unbounded, finishOut_refused_iff hw]
        simp [hl, hw]
      · have hnext : ∀ r, finishRegs i s (regResult i s) ≠ .refused r := by
          unfold finishRegs; split <;> simp
        rw [exec_eq_finishRegs hr hw]
        simp [hl, hw, hnext]

/-- Settles O17: the cases of R207 for a command, a reserved word, and the three lines that write `IN`. -/
theorem refusalsAreThoseOfTheSpec : Obligations.RefusalsAreThoseOfTheSpec := by
  refine ⟨exec_refused_iff, fun w s hw => sendWord_of_decode_ne_ok hw s,
    fun v s => hostWriteIn_refused_iff, fun s => hostWriteIn_refused_iff, fun p s hp => ?_⟩
  rw [performLine_flip_of_lt hp, hostWriteIn_refused_iff, flipBit_length]

/-! ### UncorrectableBlock -/

/-- Decoding meets an uncorrectable block exactly when one of the blocks is (44_decoder.md R169, R172). -/
theorem Decoder.decBlocks_eq_uncorrectable {t : CodeTable} {c : Code} {bs : List Bits} :
    Decoder.decBlocks t c bs = .error .uncorrectableBlock ↔
      ∃ b ∈ bs, Decoder.decBlock t c b = .error .uncorrectableBlock := by
  induction bs with
  | nil => simp [Decoder.decBlocks]
  | cons b bs ih =>
    rw [Decoder.decBlocks, Except.bind_eq_error]
    cases hb : Decoder.decBlock t c b with
    | error f => simp [hb, Decoder.decBlock_error hb]
    | ok d => simp [hb, Except.bind_eq_error, ih, pure, Except.pure]

/-- A block is uncorrectable exactly when its syndrome is neither zero nor a column (60_exceptions.md R195). -/
theorem Decoder.decBlock_eq_uncorrectable {t : CodeTable} {c : Code} {b : Bits} :
    Decoder.decBlock t c b = .error .uncorrectableBlock ↔ syndromeOf t c b ≠ zeros c.r ∧
      ∀ p, p < c.n → (t.par c).col c.r p ≠ syndromeOf t c b := by
  rw [syndromeOf_eq_syndrome, ← Decoder.locate_eq_none_iff]
  by_cases hz : Decoder.syndrome t c b = zeros c.r
  · simp [Decoder.decBlock_of_syndrome_eq_zeros hz, hz]
  · cases hl : Decoder.locate t c (Decoder.syndrome t c b) with
    | none => simp [Decoder.decBlock_of_locate_eq_none hz hl, hz]
    | some p => simp [Decoder.decBlock_of_locate_eq_some hz hl]

theorem mem_blocks {w : Nat} {s b : Bits} :
    b ∈ blocks w s ↔ ∃ i, i < s.length / w ∧ slice s (i * w) ((i + 1) * w) = b := by
  simp [blocks]

/-- DECODE with the index of a code in `CODE` and an `IN` that does not decode (44_decoder.md R171). -/
theorem exec_decode_of_error {s : State} {c : Code} {f : RaisedFault} (hr : s.ready = true)
    (hc : s.code.toNat = c.index) (hd : Decoder.decode s.ct c s.inBuf = .error f) :
    exec .decode s = .next (outFault s [] f.number.toNat) := by
  refine exec_of_outResult_error hr (by decide) (by decide) ?_
  rw [outResult, State.codeOperand_eq_ok.mpr hc]
  exact hd

theorem Code.index_inj {c d : Code} : c.index = d.index ↔ c = d := by
  cases c <;> cases d <;> decide

/-- DECODE leaves UncorrectableBlock exactly when decoding `IN` does. -/
theorem exec_decode_eq_uncorrectable_iff {s : State} {c : Code} (hr : s.ready = true)
    (hc : s.code.toNat = c.index) : exec .decode s = .next (outFault s [] 4) ↔
      Decoder.decode s.ct c s.inBuf = .error .uncorrectableBlock := by
  refine ⟨fun h => ?_, exec_decode_of_error hr hc⟩
  have hfault : (outFault s [] 4).fault = RaisedFault.uncorrectableBlock.number := by
    have htake := State.takeFault_eq_claim s .decode .uncorrectableBlock
    exact (congrArg State.fault htake).symm.trans (State.takeFault_fault _ _ _)
  obtain ⟨h, -⟩ | ⟨d, hd, h⟩ := (exec_fault_iff h .uncorrectableBlock).mp (congrArg _ hfault)
  · cases h
  · rwa [Code.index_inj.mp (hc.symm.trans hd)]

/-- Settles O22: DECODE leaves the fault when decoding does, decoding does when a block does, and a block
does when its syndrome is neither zero nor a column. -/
theorem uncorrectableBlockExactly : Obligations.UncorrectableBlockExactly := by
  intro s c hr hc htile
  rw [exec_decode_eq_uncorrectable_iff hr hc, Decoder.decode_of_mod_eq htile,
    Decoder.decBlocks_eq_uncorrectable]
  simp only [mem_blocks, Decoder.decBlock_eq_uncorrectable]
  constructor
  · rintro ⟨_, ⟨b, hb, rfl⟩, h⟩
    exact ⟨b, hb, h⟩
  · rintro ⟨b, hb, h⟩
    exact ⟨_, ⟨b, hb, rfl⟩, h⟩

/-- Under a valid table decoding never meets an uncorrectable block (44_decoder.md R170). -/
theorem Decoder.decode_ne_uncorrectable {t : CodeTable} (h : t.valid = true) (c : Code) (e : Bits) :
    Decoder.decode t c e ≠ .error .uncorrectableBlock := by
  by_cases hm : e.length % c.n = 0
  · obtain ⟨d, hd⟩ := Decoder.exists_decode h hm
    simp [hd]
  · simp [Decoder.decode_of_mod_ne hm]

theorem not_raises_uncorrectableBlock {s : State} (h : s.ct.valid = true) (i : Instr) :
    ¬ Raises i s .uncorrectableBlock := by
  have hheader : ∀ e, HeaderCodec.decodeHeader s.ct e ≠ .error .uncorrectableBlock := fun e => by
    simp [HeaderCodec.decodeHeader_eq_error, Decoder.decode_ne_uncorrectable h]
  cases i <;> simp [Raises, RaisesInHeader, RaisesInPayload, Decoder.decode_ne_uncorrectable h, hheader]

/-- Settles O46: no part of a command raises the fault under a valid table. -/
theorem uncorrectableBlockNeverHappensUnderAValidTable :
    Obligations.UncorrectableBlockNeverHappensUnderAValidTable := fun i _ _ hv h hf =>
  not_raises_uncorrectableBlock hv i ((exec_fault_iff h .uncorrectableBlock).mp hf)

end Sys2Proof.Machine

/-! SUPPORT. The statement that no command depends on the parity-check matrix of a valid table
(40_codetable.md R108), with the lemmas it rests on. -/

namespace Sys2Proof.Machine

open Sys2Proof.Claim

/-! ### One codeword and its neighbours -/

/-- A block that differs from a codeword in at most one bit decodes to its data (44_decoder.md R174). -/
theorem Decoder.decBlock_of_differences {t : CodeTable} (h : t.valid = true) {c : Code} {d b : Bits}
    (hd : d.length = c.k) (hb : b.length = c.n) (hdiff : differences (Encoder.encBlock t c d) b 0 c.n ≤ 1) :
    Decoder.decBlock t c b = .ok d := by
  obtain rfl | ⟨p, hp, rfl⟩ := eq_or_flipBit_of_differences (by simp) hb hdiff
  · exact Decoder.decBlock_encBlock h hd
  · exact Decoder.decBlock_flipBit h hd hp

/-- Every block has a codeword at most one bit away, and decodes to its data (44_decoder.md R170). -/
theorem Decoder.exists_decBlock_differences {t : CodeTable} (h : t.valid = true) {c : Code} {b : Bits}
    (hb : b.length = c.n) : ∃ d, Decoder.decBlock t c b = .ok d ∧ d.length = c.k ∧
      differences (Encoder.encBlock t c d) b 0 c.n ≤ 1 := by
  obtain ⟨d, hd, hl, hnear⟩ := Decoder.decBlock_nearest h hb
  refine ⟨d, hd, hl, ?_⟩
  obtain he | ⟨p, hp, he⟩ := hnear
  · rw [he, differences_self]; exact Nat.zero_le 1
  · rw [he, differences_comm]; exact differences_flipBit_le (hb.symm ▸ hp) 0 c.n

/-! ### The encoder and the decoder under two tables with the same generator matrices -/

section
variable {t t' : CodeTable} (hg : ∀ c, t'.gen c = t.gen c)
include hg

theorem Encoder.encBlock_congr (c : Code) (d : Bits) :
    Encoder.encBlock t' c d = Encoder.encBlock t c d := by
  rw [Encoder.encBlock, Encoder.encBlock, hg]

theorem Encoder.encode_congr (c : Code) (d : Bits) : Encoder.encode t' c d = Encoder.encode t c d := by
  simp only [Encoder.encode_eq_flatten, funext (Encoder.encBlock_congr hg c)]

theorem FrameAssembler.buildFrame_congr (c : Code) (d : Bits) :
    FrameAssembler.buildFrame t' c d = FrameAssembler.buildFrame t c d := by
  simp only [FrameAssembler.buildFrame, HeaderCodec.encodeHeader, Encoder.encode_congr hg]

variable (h : t.valid = true) (h' : t'.valid = true)
include h h'

/-- The data of the codeword next to a block do not depend on the parity-check matrix. -/
theorem Decoder.decBlock_congr {c : Code} {b : Bits} (hb : b.length = c.n) :
    Decoder.decBlock t' c b = Decoder.decBlock t c b := by
  obtain ⟨d, hd, hl, hdiff⟩ := Decoder.exists_decBlock_differences h hb
  rw [hd]
  refine Decoder.decBlock_of_differences h' hl hb ?_
  rwa [Encoder.encBlock_congr hg]

theorem Decoder.decBlocks_congr {c : Code} {bs : List Bits} (hb : ∀ b ∈ bs, b.length = c.n) :
    Decoder.decBlocks t' c bs = Decoder.decBlocks t c bs := by
  induction bs with
  | nil => rfl
  | cons b bs ih =>
    rw [Decoder.decBlocks, Decoder.decBlocks, Decoder.decBlock_congr hg h h' (hb b (by simp)),
      ih fun b hm => hb b (by simp [hm])]

theorem Decoder.decode_congr (c : Code) (e : Bits) :
    Decoder.decode t' c e = Decoder.decode t c e := by
  rw [Decoder.decode, Decoder.decode, Decoder.decBlocks_congr hg h h' fun b => mem_blocks_length]

theorem HeaderCodec.decodeHeader_congr (e : Bits) :
    HeaderCodec.decodeHeader t' e = HeaderCodec.decodeHeader t e := by
  rw [HeaderCodec.decodeHeader, HeaderCodec.decodeHeader, Decoder.decode_congr hg h h']

end

/-! ### A command under the other table -/

/-- `s` with another table (40_codetable.md R108). -/
def State.withTable (s : State) (ct : CodeTable) : State := { s with ct := ct }

/-- The same answer with the other table in the next state. -/
def answerWithTable (ct : CodeTable) : StepResult → StepResult
  | .next s => .next (s.withTable ct)
  | .fault e => .fault e
  | .refused r => .refused r

theorem finishOut_withTable (i : Instr) (s : State) (ct : CodeTable) (x : Except RaisedFault Bits) :
    finishOut i (s.withTable ct) x = answerWithTable ct (finishOut i s x) := by
  cases x with
  | error f => cases i <;> rfl
  | ok v =>
    have hcap : (s.withTable ct).mem.holds v.length = s.mem.holds v.length := rfl
    simp only [finishOut, hcap]
    split <;> rfl

theorem finishRegs_withTable (i : Instr) (s : State) (ct : CodeTable) (x : Except RaisedFault State) :
    finishRegs i (s.withTable ct) (x.map (·.withTable ct)) = answerWithTable ct (finishRegs i s x) := by
  cases x with
  | error f => cases i <;> rfl
  | ok s₁ => rfl

section
variable {s : State} {ct : CodeTable} (hg : ∀ c, ct.gen c = s.ct.gen c) (h : s.ct.valid = true)
  (h' : ct.valid = true)
include hg h h'

theorem outResult_withTable (i : Instr) : outResult i (s.withTable ct) = outResult i s := by
  cases i
  case ctidx | ctlen | hdrdec | hdrbld => rfl
  case encode =>
    exact congrArg (s.codeOperand >>= ·) (funext fun c => congrArg _ (Encoder.encode_congr hg c _))
  case hdrenc => exact congrArg Except.ok (Encoder.encode_congr hg hdrCode s.inBuf)
  case frmbld =>
    exact congrArg (s.codeOperand >>= ·) (funext fun c => FrameAssembler.buildFrame_congr hg c _)
  case decode => exact congrArg (s.codeOperand >>= ·) (funext fun c => Decoder.decode_congr hg h h' c _)
  case frmprs =>
    have hct : (s.withTable ct).ct = ct := rfl
    simp only [outResult, hct, HeaderCodec.decodeHeader_congr hg h h', Decoder.decode_congr hg h h']
    rfl

theorem regResult_withTable (i : Instr) :
    regResult i (s.withTable ct) = (regResult i s).map (·.withTable ct) := by
  cases i
  case ctidx =>
    have hop : (s.withTable ct).codeOperand = s.codeOperand := rfl
    rw [regResult, regResult, hop]
    cases s.codeOperand <;> rfl
  case ctlen =>
    have hop : (s.withTable ct).lengthOperand = s.lengthOperand := rfl
    rw [regResult, regResult, hop]
    cases s.lengthOperand <;> rfl
  case hdrdec =>
    have hop : (s.withTable ct).headerRegion = s.headerRegion := rfl
    have hct : (s.withTable ct).ct = ct := rfl
    simp only [regResult, hop, hct, HeaderCodec.decodeHeader_congr hg h h']
    cases s.headerRegion with
    | error f => rfl
    | ok e => simp only [bind, Except.bind]; cases HeaderCodec.decodeHeader s.ct e <;> rfl
  all_goals rfl

/-- A command answers the same under both tables. -/
theorem exec_withTable (i : Instr) : exec i (s.withTable ct) = answerWithTable ct (exec i s) := by
  cases hr : s.ready with
  | false => rw [exec_of_not_ready hr, exec_of_not_ready (s := s.withTable ct) hr]; rfl
  | true =>
    by_cases hw : i ∈ outWriters
    · by_cases hl : i = .hdrenc → s.inBuf.length = 32
      · rw [exec_eq_finishOut hr hw hl, exec_eq_finishOut (s := s.withTable ct) hr hw hl,
          outResult_withTable hg h h', finishOut_withTable]
      · obtain ⟨rfl, hl'⟩ := Classical.not_imp.mp hl
        rw [exec_hdrenc_of_not_length hr hl', exec_hdrenc_of_not_length (s := s.withTable ct) hr hl']
        rfl
    · rw [exec_eq_finishRegs hr hw, exec_eq_finishRegs (s := s.withTable ct) hr hw,
        regResult_withTable hg h h', finishRegs_withTable]

end

/-- Settles O47: the encoder reads the generator matrices alone, and the decoder's answer is the data of the
one codeword next to each block, which they determine. -/
theorem commandsDoNotDependOnTheParityMatrix : Obligations.CommandsDoNotDependOnTheParityMatrix := by
  intro i s ct h h' hg
  have hexec := exec_withTable hg h h' i
  exact ⟨fun s' hs => hexec.trans (congrArg _ hs), fun r hs => hexec.trans (congrArg _ hs)⟩

end Sys2Proof.Machine

/-! SUPPORT. The statements of 44_decoder.md: DECODE (R171), the nearest codewords (R105, R106, R169), code 0
(R173) and two errors in one codeword (R175), with the lemmas they rest on. -/

namespace Sys2Proof.Machine

open Sys2Proof.Claim

/-! ### The one data sequence next to an input -/

/-- Every input of `m` blocks has data whose codewords differ from it in at most one bit per block. -/
theorem Decoder.exists_nearest {t : CodeTable} (h : t.valid = true) {c : Code} {e : Bits} {m : Nat}
    (he : e.length = c.n * m) :
    ∃ v : Bits, v.length = c.k * m ∧ OneFlipPer (Encoder.encode t c v) e 0 c.n m := by
  have hblock : ∀ b : Fin m, (slice e (b * c.n) ((b + 1) * c.n)).length = c.n := fun b => by
    have hend : (b + 1) * c.n ≤ e.length := by
      rw [he, Nat.mul_comm]; exact Nat.mul_le_mul_left _ b.isLt
    rw [slice_length_of_le hend, Nat.succ_mul, Nat.add_sub_cancel_left]
  choose d _ hlen hdiff using fun b => Decoder.exists_decBlock_differences h (hblock b)
  have hmem : ∀ x ∈ List.ofFn d, x.length = c.k := by simpa [List.mem_ofFn] using hlen
  have hv : (List.ofFn d).flatten.length = c.k * m := by
    rw [flatten_length_of_forall _ hmem, List.length_ofFn, Nat.mul_comm]
  refine ⟨(List.ofFn d).flatten, hv, fun b hb => ?_⟩
  have hcodeword : slice (Encoder.encode t c (List.ofFn d).flatten) (b * c.n) ((b + 1) * c.n) =
      Encoder.encBlock t c (d ⟨b, hb⟩) := by
    rw [Encoder.slice_encode t c _ (by rwa [hv, ceilDiv_mul c.k_pos]), Encoder.pad_eq_self hv,
      ← getElem_blocks (by simpa [hv, c.k_pos] using hb)]
    simp only [blocks_flatten c.k_pos _ hmem, List.getElem_ofFn]
  rw [differences_slice, Nat.zero_add, ← Nat.succ_mul, hcodeword]
  exact hdiff ⟨b, hb⟩

/-- An input decodes to the data whose codewords differ from it in at most one bit per block. -/
theorem Decoder.decode_of_nearest {t : CodeTable} (h : t.valid = true) {c : Code} {e v : Bits} {m : Nat}
    (he : e.length = c.n * m) (hv : v.length = c.k * m)
    (hf : OneFlipPer (Encoder.encode t c v) e 0 c.n m) : Decoder.decode t c e = .ok v := by
  have hm : ceilDiv v.length c.k = m := by rw [hv, ceilDiv_mul c.k_pos]
  rw [Decoder.decode_of_oneFlipPer h (hm.symm ▸ he) (hm.symm ▸ hf), Encoder.pad_eq_self hv]

/-- Settles O42: such data exist block by block; they are what `IN` decodes to, and so are any others like
them. -/
theorem decodeFindsTheNearestCodewords : Obligations.DecodeFindsTheNearestCodewords := by
  intro s c ⟨hr, hv⟩ hc htile hf
  have hin : s.inBuf.length = c.n * (s.inBuf.length / c.n) :=
    (Nat.mul_div_cancel' (Nat.dvd_of_mod_eq_zero htile)).symm
  obtain ⟨v, hlen, hnear⟩ := Decoder.exists_nearest hv hin
  have hdecode := Decoder.decode_of_nearest hv hin hlen hnear
  refine ⟨v, exec_decode_of_ok hr hc hdecode (hlen.symm ▸ hf), hlen, hnear, fun v' hlen' hnear' => ?_⟩
  have hdecode' := Decoder.decode_of_nearest hv hin (hlen'.trans hlen) hnear'
  exact Except.ok.inj (hdecode'.symm.trans hdecode)

/-! ### Code 0 -/

/-- Settles O44: each data bit is the majority of its three. -/
theorem repetitionCodeDecodesByMajority : Obligations.RepetitionCodeDecodesByMajority := by
  intro s m ⟨hr, hv⟩ hc hl hf
  have hindex : s.code.toNat = Code.repetition3_1.index := by rw [hc]; rfl
  refine ⟨_, exec_decode_of_ok hr hindex (Decoder.decode_repetition hv hl) (by simpa using hf), by simp,
    fun i hi => ?_⟩
  rw [bitAt_range_map, if_pos hi]

/-! ### Two errors in one codeword -/

theorem differences_triangle (x y z : Bits) (a w : Nat) :
    differences x z a w ≤ differences x y a w + differences y z a w := by
  unfold differences
  refine (Finset.card_le_card fun i hi => ?_).trans (Finset.card_union_le _ _)
  obtain ⟨hi, hne⟩ := Finset.mem_filter.mp hi
  simp only [Finset.mem_union, Finset.mem_filter, hi, true_and]
  by_contra hboth
  push Not at hboth
  exact hne (hboth.1.trans hboth.2)

/-- Between two sequences that differ in at most two positions there is one at most one step from both. -/
theorem exists_between {x z : Bits} {w : Nat} (hx : x.length = w) (h : differences x z 0 w ≤ 2) :
    ∃ y : Bits, y.length = w ∧ differences x y 0 w ≤ 1 ∧ differences y z 0 w ≤ 1 := by
  by_cases hz : differences x z 0 w = 0
  · exact ⟨x, hx, by simp [differences_self], by omega⟩
  · obtain ⟨p, hp⟩ := Finset.card_pos.mp (Nat.pos_of_ne_zero hz)
    obtain ⟨hpw, hne⟩ := Finset.mem_filter.mp hp
    rw [Nat.zero_add] at hne
    have hpx : p < x.length := hx.symm ▸ Finset.mem_range.mp hpw
    refine ⟨flipBit x p, by simpa using hx, differences_flipBit hpx w, ?_⟩
    have hcard := Finset.card_erase_of_mem hp
    refine (Finset.card_le_card fun i hi => ?_).trans (hcard.le.trans (Nat.pred_le_pred h))
    obtain ⟨hiw, hdiff⟩ := Finset.mem_filter.mp hi
    rw [Nat.zero_add, bitAt_flipBit hpx] at hdiff
    have hip : i ≠ p := by
      rintro rfl
      revert hne hdiff
      cases bitAt x i <;> cases bitAt z i <;> simp
    simp_all

/-- Two codewords of different data differ in at least three positions (44_decoder.md R175). -/
theorem Encoder.three_le_differences {t : CodeTable} (h : t.valid = true) {c : Code} {d d' : Bits}
    (hd : d.length = c.k) (hd' : d'.length = c.k) (hne : d ≠ d') :
    3 ≤ differences (Encoder.encBlock t c d) (Encoder.encBlock t c d') 0 c.n := by
  by_contra hlt
  obtain ⟨y, hy, hdy, hyd'⟩ := exists_between (Encoder.encBlock_length t c d)
    (Nat.le_of_lt_succ (Nat.lt_of_not_le hlt))
  rw [differences_comm] at hyd'
  have h₁ := Decoder.decBlock_of_differences h hd hy hdy
  have h₂ := Decoder.decBlock_of_differences h hd' hy hyd'
  exact hne (Except.ok.inj (h₁.symm.trans h₂))

theorem Decoder.decode_of_decBlock {t : CodeTable} {c : Code} {b d : Bits} (hb : b.length = c.n)
    (h : Decoder.decBlock t c b = .ok d) : Decoder.decode t c b = .ok d := by
  have hblocks : blocks c.n b = [b] := by
    simpa [blocks_nil (s := []) c.n_pos] using blocks_append (t := []) c.n_pos hb
  rw [Decoder.decode_of_mod_eq (by rw [hb, Nat.mod_self]), hblocks,
    Decoder.decBlocks_of_forall₂ (.cons h .nil), List.flatten_singleton]

/-- Settles O45: the decoded data's codeword is at most one bit from `IN` and so is not the sent one; two
codewords are at least three bits apart, and the three distances have no other values left. -/
theorem twoErrorsDecodeToWrongData : Obligations.TwoErrorsDecodeToWrongData := by
  intro s c d ⟨hr, hv⟩ hc hd hin htwo hf
  obtain ⟨d', hblock, hd', hone⟩ := Decoder.exists_decBlock_differences hv hin
  have hne : d' ≠ d := by
    rintro rfl
    omega
  have hthree := Encoder.three_le_differences hv hd hd' hne.symm
  have htri := differences_triangle (Encoder.encBlock s.ct c d) s.inBuf (Encoder.encBlock s.ct c d') 0 c.n
  rw [differences_comm s.inBuf] at htri
  refine ⟨d', exec_decode_of_ok hr hc (Decoder.decode_of_decBlock hin hblock) (hd'.symm ▸ hf), hd', hne,
    ?_, ?_⟩ <;> omega

/-! ### The command DECODE -/

/-- DECODE with no index in `CODE` (44_decoder.md R171). -/
theorem exec_decode_of_not_index {s : State} (hr : s.ready = true) (hc : 3 < s.code.toNat) :
    exec .decode s = .next (outFault s [] 1) := by
  refine exec_of_outResult_error (f := .unsupportedCode) hr (by decide) (by decide) ?_
  rw [outResult, State.codeOperand_eq_error.mpr ⟨rfl, hc⟩]
  rfl

/-- The first example of 44_decoder.md R171: two blocks of code 0, one flip in each. -/
theorem Decoder.decode_repetition_110001 {t : CodeTable} (h : t.valid = true) :
    Decoder.decode t .repetition3_1 (row 6 0b110001) = .ok (row 2 0b10) := by
  rw [Decoder.decode_repetition h (m := 2) (by decide)]
  decide

/-- Settles O41: DECODE by `CODE`, the length of `IN` and the answer of `decode`, and the two examples. -/
theorem decodeWritesTheDecodedBlocks : Obligations.DecodeWritesTheDecodedBlocks := by
  refine ⟨decode_encode .decode, fun s hr => ⟨exec_decode_of_not_index hr, fun c hc => ⟨fun hm => ?_,
    fun f hf => exec_decode_of_error hr hc hf, fun v hv => ⟨Decoder.decode_length hv,
      exec_decode_of_ok hr hc hv⟩⟩⟩, fun t => Decoder.decode_repetition_110001, by decide⟩
  exact exec_decode_of_error hr hc (Decoder.decode_of_mod_ne hm)

end Sys2Proof.Machine

/-! SUPPORT. The statements on CTIDX and CTLEN (40_codetable.md section 5) and on ENCODE (41_encoder.md
section 3), with the lemmas they rest on. -/

namespace Sys2Proof.Machine

open Sys2Proof.Claim

/-! ### What a command that completed with FAULT = 0 has written -/

theorem exec_regs_of_fault_eq_zero {i : Instr} {s s' : State} (hw : i ∉ outWriters)
    (h : exec i s = .next s') (hf : s'.fault = 0) :
    ∃ s₁, regResult i s = .ok s₁ ∧ s' = s₁.setFault .ok := by
  obtain ⟨hr, -⟩ := exec_next_cases h
  rw [exec_eq_finishRegs hr hw] at h
  obtain ⟨f, -, rfl⟩ | hok := finishRegs_next_cases h
  · rw [State.takeFault_fault] at hf
    exact absurd hf f.number_ne_zero
  · exact hok

theorem exec_out_of_outResult_ok {i : Instr} {s s' : State} {v : Bits} (hw : i ∈ outWriters)
    (hi : i ≠ .hdrenc) (h : exec i s = .next s') (hv : outResult i s = .ok v) : s'.outBuf = v := by
  obtain ⟨hr, -⟩ := exec_next_cases h
  rw [exec_eq_finishOut hr hw fun he => absurd he hi, hv] at h
  obtain ⟨f, hf, -⟩ | ⟨v', hv', -, rfl⟩ := finishOut_next_cases h
  · cases hf
  · cases hv'; rfl

/-! ### The lookup commands -/

theorem Code.toNat_ofNat_index (c : Code) : (BitVec.ofNat 16 c.index).toNat = c.index := by cases c <;> rfl

theorem Code.toNat_ofNat_n (c : Code) : (BitVec.ofNat 16 c.n).toNat = c.n := by cases c <;> rfl

/-- Settles O25: the first command found a code, its results name that code, and the second finds it too. -/
theorem lookupCommandsAreInverse : Obligations.LookupCommandsAreInverse := by
  refine fun s s₁ => ⟨fun h hf => ?_, fun h hf => ?_⟩
  all_goals
    obtain ⟨hr, -⟩ := exec_next_cases h
    obtain ⟨_, hregs, rfl⟩ := exec_regs_of_fault_eq_zero (by decide) h hf
    obtain ⟨c, hc, hs₁⟩ := Except.bind_eq_ok.mp hregs
    cases hs₁
  · have hcode : s.code.toNat = c.index := State.codeOperand_eq_ok.mp hc
    refine ⟨_, exec_ctlen_of_length (c := c) (by simpa using hr) c.toNat_ofNat_n,
      fault_faultKeep_zero _, ?_, rfl, rfl⟩
    exact BitVec.eq_of_toNat_eq (c.toNat_ofNat_index.trans hcode.symm)
  · have hn : s.n.toNat = c.n := State.lengthOperand_eq_ok.mp hc
    refine ⟨_, exec_ctidx_of_index (c := c) (by simpa using hr) c.toNat_ofNat_index,
      fault_faultKeep_zero _, ?_, rfl, rfl⟩
    exact BitVec.eq_of_toNat_eq (c.toNat_ofNat_n.trans hn.symm)

/-! ### The encoder -/

/-- Two sequences of `m` blocks are equal when they agree in every bit of every block. -/
theorem bits_ext_blocks {x y : Bits} {w m : Nat} (hx : x.length = w * m) (hy : y.length = w * m)
    (h : ∀ b j, b < m → j < w → bitAt x (b * w + j) = bitAt y (b * w + j)) : x = y := by
  refine bits_ext (hx.trans hy.symm) fun p hp => ?_
  rw [hx] at hp
  have hw : 0 < w := Nat.pos_of_mul_pos_right (Nat.zero_lt_of_lt hp)
  have := h (p / w) (p % w) (Nat.div_lt_of_lt_mul hp) (Nat.mod_lt p hw)
  rwa [Nat.div_add_mod'] at this

/-- The encoder is linear over GF(2) (41_encoder.md R127). -/
theorem Encoder.encode_xorBits (t : CodeTable) (c : Code) {x y : Bits} (h : x.length = y.length) :
    Encoder.encode t c (xorBits x y) = xorBits (Encoder.encode t c x) (Encoder.encode t c y) := by
  have hx : (xorBits x y).length = x.length := by simp [h]
  refine bits_ext_blocks (w := c.n) (m := ceilDiv x.length c.k) (by rw [Encoder.encode_length, hx])
    (by simp [Encoder.encode_length, h]) fun b j hb hj => ?_
  rw [bitAt_xorBits (by rw [Encoder.encode_length, Encoder.encode_length, h]),
    Encoder.bitAt_encode_eq_parity t c _ (hx.symm ▸ hb) hj, Encoder.bitAt_encode_eq_parity t c _ hb hj,
    Encoder.bitAt_encode_eq_parity t c _ (h ▸ hb) hj]
  simp only [parity_eq_xorSum, bitAt_xorBits h, Bool.and_xor_distrib_right, xorSum_map_xor]

/-- Settles O29: all-zero data are the sum of some data with themselves. -/
theorem encodeIsLinear : Obligations.EncodeIsLinear := by
  refine fun t c x y h => ⟨Encoder.encode_xorBits t c h, ?_⟩
  rw [← xorBits_self (rfl : x.length = x.length), Encoder.encode_xorBits t c rfl,
    xorBits_self (Encoder.encode_length t c x)]

/-- The data bits stand in the last `k` positions of each codeword (30_encoding.md R76). -/
theorem Encoder.bitAt_encode_data {t : CodeTable} (h : t.valid = true) (c : Code) (d : Bits) {b i : Nat}
    (hb : b < ceilDiv d.length c.k) (hi : i < c.k) :
    bitAt (Encoder.encode t c d) (b * c.n + c.r + i) = bitAt d (b * c.k + i) := by
  have hrk := c.r_add_k
  rw [Nat.add_assoc, Encoder.bitAt_encode t c d hb (by omega), Encoder.bitAt_encBlock_data h _ hi,
    Encoder.bitAt_slice_pad c d b hi]

theorem outResult_encode_of_index {s : State} {c : Code} (hc : s.code.toNat = c.index) :
    outResult .encode s = .ok (Encoder.encode s.ct c s.inBuf) := by
  rw [outResult, State.codeOperand_eq_ok.mpr hc]; rfl

/-- Settles O30: `OUT` holds `encode(CODE, IN)`. -/
theorem encodeKeepsTheDataBits : Obligations.EncodeKeepsTheDataBits := by
  intro s s' c ⟨hr, hv⟩ hc h b i hb hi
  rw [exec_out_of_outResult_ok (by decide) (by decide) h (outResult_encode_of_index hc)]
  exact Encoder.bitAt_encode_data hv c s.inBuf hb hi

end Sys2Proof.Machine

/-! SUPPORT. The statements on HDRBLD, HDRENC and HDRDEC (42_header_codec.md sections 3 and 4,
30_encoding.md section 3), with the lemmas they rest on. -/

namespace Sys2Proof.Machine

open Sys2Proof.Claim

theorem bitAt_headerFields_left (a b : Nat) {i : Nat} (hi : i < 16) :
    bitAt (u16 a ++ u16 b) i = a.testBit (15 - i) := by
  rw [bitAt_append, u16_length, if_pos hi, bitAt_u16, if_pos hi]

theorem bitAt_headerFields_right (a b : Nat) {i : Nat} (hi : i < 16) :
    bitAt (u16 a ++ u16 b) (16 + i) = b.testBit (15 - i) := by
  rw [bitAt_append, u16_length, if_neg (by omega), Nat.add_sub_cancel_left, bitAt_u16, if_pos hi]

/-- HDRBLD when `build_header` faults (42_header_codec.md R136). -/
theorem exec_hdrbld_of_error {s : State} {f : RaisedFault} (hr : s.ready = true)
    (h : HeaderCodec.buildHeader s.len.toNat s.code.toNat = .error f) :
    exec .hdrbld s = .next (outFault s [] f.number.toNat) :=
  exec_of_outResult_error hr (by decide) (by decide) h

/-- Settles O31: the two checks of `build_header` in their order, and the bits of the two fields. -/
theorem hdrbldWritesBothFields : Obligations.HdrbldWritesBothFields := by
  refine ⟨decode_encode .hdrbld, fun s hr => ⟨fun hc => ?_, fun hc hl => ?_, fun hc hl hf => ?_⟩⟩
  · exact exec_hdrbld_of_error hr (HeaderCodec.buildHeader_eq_error.mpr (.inl ⟨rfl, hc⟩))
  · exact exec_hdrbld_of_error hr (HeaderCodec.buildHeader_eq_error.mpr (.inr ⟨rfl, hc, hl⟩))
  · obtain ⟨c, hc⟩ := Code.exists_index_eq hc
    refine ⟨_, exec_hdrbld_of_range hr hc hl hf, by simp, fun i hi => ⟨bitAt_headerFields_left _ _ hi, ?_⟩⟩
    rw [bitAt_headerFields_right _ _ hi, ← hc]
    rfl

/-- Settles O33: HDRENC encodes under code 0, which writes each bit three times. -/
theorem hdrencTriplesEveryHeaderBit : Obligations.HdrencTriplesEveryHeaderBit := by
  intro s ⟨hr, hv⟩ hl hf
  refine ⟨_, exec_hdrenc_of_length hr hl hf, by rw [Encoder.encode_repetition_length, hl], fun i hi => ?_⟩
  have htriple : ∀ q, q < 3 → bitAt (Encoder.encode s.ct .repetition3_1 s.inBuf) (3 * i + q) =
      bitAt s.inBuf i := fun q => Encoder.bitAt_encode_repetition hv s.inBuf (hl.symm ▸ hi)
  exact ⟨htriple 0 (by decide), htriple 1 (by decide), htriple 2 (by decide)⟩

/-- `decode_header` of the first 96 bits, for an index in range (42_header_codec.md R141, R144). -/
theorem HeaderCodec.decodeHeader_firstBits_ok {t : CodeTable} (h : t.valid = true) {e : Bits} {c : Code}
    (he : 96 ≤ e.length) (hc : headerField e 16 = c.index) :
    HeaderCodec.decodeHeader t (slice e 0 96) = .ok (headerField e 0, c) := by
  have hlen : (slice e 0 96).length = 96 := slice_length_of_le he
  have hindex : headerField (slice e 0 96) 16 = c.index := (headerField_slice (by decide)).trans hc
  rw [HeaderCodec.decodeHeader_ok h hlen hindex, headerField_slice (by decide)]

/-- `decode_header` of the first 96 bits, for an index out of range (42_header_codec.md R141, R145). -/
theorem HeaderCodec.decodeHeader_firstBits_error {t : CodeTable} (h : t.valid = true) {e : Bits}
    (he : 96 ≤ e.length) (hc : 3 < headerField e 16) :
    HeaderCodec.decodeHeader t (slice e 0 96) = .error .headerCorrupt := by
  have hlen : (slice e 0 96).length = 96 := slice_length_of_le he
  exact HeaderCodec.decodeHeader_error h hlen (hc.trans_eq (headerField_slice (by decide)).symm)

/-- Settles O35: the header bits are decoded by majority, and the index is in range or not. -/
theorem hdrdecDecodesByMajority : Obligations.HdrdecDecodesByMajority := by
  refine fun s ⟨hr, hv⟩ hl => ⟨fun hc => ?_, fun hc => ?_⟩
  · obtain ⟨c, hc⟩ := Code.exists_index_eq hc
    rw [hc]
    exact exec_hdrdec_of_ok hr hl (HeaderCodec.decodeHeader_firstBits_ok hv hl hc)
  · exact exec_hdrdec_of_error hr hl (HeaderCodec.decodeHeader_firstBits_error hv hl hc)

end Sys2Proof.Machine

/-! SUPPORT. The statements on FRMBLD (43_frame_assembler.md, 30_encoding.md section 4), with the lemmas they
rest on. -/

namespace Sys2Proof.Machine

open Sys2Proof.Claim

/-- The frame of the data `d` under the code `c`: encoded header, then encoded payload
(43_frame_assembler.md R150). -/
def frameOf (t : CodeTable) (c : Code) (d : Bits) : Bits :=
  Encoder.encode t .repetition3_1 (u16 d.length ++ u16 c.index) ++ Encoder.encode t c d

theorem encode_header_length (t : CodeTable) (a b : Nat) :
    (Encoder.encode t .repetition3_1 (u16 a ++ u16 b)).length = 96 := by
  simp [Encoder.encode_repetition_length]

theorem frameOf_length (t : CodeTable) (c : Code) (d : Bits) :
    (frameOf t c d).length = 96 + c.n * ceilDiv d.length c.k := by
  rw [frameOf, List.length_append, encode_header_length, Encoder.encode_length]

theorem bitAt_frameOf_header (t : CodeTable) (c : Code) (d : Bits) {p : Nat} (hp : p < 96) :
    bitAt (frameOf t c d) p = bitAt (Encoder.encode t .repetition3_1 (u16 d.length ++ u16 c.index)) p := by
  rw [frameOf, bitAt_append, encode_header_length, if_pos hp]

theorem bitAt_frameOf_payload (t : CodeTable) (c : Code) (d : Bits) (p : Nat) :
    bitAt (frameOf t c d) (96 + p) = bitAt (Encoder.encode t c d) p := by
  rw [frameOf, bitAt_append, encode_header_length, if_neg (by omega), Nat.add_sub_cancel_left]

theorem FrameAssembler.buildFrame_of_length {t : CodeTable} {c : Code} {d : Bits} (hd : d.length ≤ 65535) :
    FrameAssembler.buildFrame t c d = .ok (frameOf t c d) := by
  have hb : HeaderCodec.buildHeader d.length c.index = .ok (u16 d.length ++ u16 c.index) :=
    (if_neg (Nat.not_lt.mpr c.index_le)).trans (if_neg (Nat.not_lt.mpr hd))
  rw [FrameAssembler.buildFrame, hb]
  rfl

/-- FRMBLD with no index in `CODE` (43_frame_assembler.md R151). -/
theorem exec_frmbld_of_not_index {s : State} (hr : s.ready = true) (hc : 3 < s.code.toNat) :
    exec .frmbld s = .next (outFault s [] 1) := by
  refine exec_of_outResult_error (f := .unsupportedCode) hr (by decide) (by decide) ?_
  rw [outResult, State.codeOperand_eq_error.mpr ⟨rfl, hc⟩]
  rfl

/-- FRMBLD with more data than the length field carries (43_frame_assembler.md R151, R153). -/
theorem exec_frmbld_of_long {s : State} {c : Code} (hr : s.ready = true) (hc : s.code.toNat = c.index)
    (hl : 65535 < s.inBuf.length) : exec .frmbld s = .next (outFault s [] 2) := by
  refine exec_of_outResult_error (f := .valueOutOfRange) hr (by decide) (by decide) ?_
  rw [outResult, State.codeOperand_eq_ok.mpr hc]
  exact FrameAssembler.buildFrame_eq_error.mpr ⟨rfl, hl⟩

/-- FRMBLD with a result that fits (43_frame_assembler.md R151). -/
theorem exec_frmbld_of_index {s : State} {c : Code} (hr : s.ready = true) (hc : s.code.toNat = c.index)
    (hl : s.inBuf.length ≤ 65535) (hf : Fits s (96 + c.n * ceilDiv s.inBuf.length c.k)) :
    exec .frmbld s = .next (outFault s (frameOf s.ct c s.inBuf) 0) := by
  refine exec_of_outResult_ok hr (by decide) (by decide) ?_ ((frameOf_length ..).symm ▸ hf)
  rw [outResult, State.codeOperand_eq_ok.mpr hc]
  exact FrameAssembler.buildFrame_of_length hl

/-- The frame of the bit 1 under code 0, the first example of 43_frame_assembler.md R151. -/
theorem frameOf_repetition_1 {t : CodeTable} (h : t.valid = true) : frameOf t .repetition3_1 [true] =
    zeros 45 ++ [true, true, true] ++ zeros 48 ++ [true, true, true] := by
  rw [frameOf, Encoder.encode_repetition_eq h, Encoder.encode_repetition_eq h]
  decide

/-- The frame of V-S4, the second example of 43_frame_assembler.md R151. -/
theorem frameOf_refTable_01101 : frameOf refTable .hamming7_4 (row 5 0b01101) =
    exampleHeader ++ row 14 0b11001101101000 := by
  rw [← Encoder.encode_exampleFields CodeTable.valid_refTable, row_eq_exampleFields,
    ← Encoder.encode_refTable_01101]
  rfl

/-- Settles O37: FRMBLD by `CODE` and the length of `IN`, and the two examples. -/
theorem frmbldWritesHeaderThenPayload : Obligations.FrmbldWritesHeaderThenPayload := by
  refine ⟨decode_encode .frmbld, fun s hr => ⟨exec_frmbld_of_not_index hr, fun c hc =>
    ⟨exec_frmbld_of_long hr hc, exec_frmbld_of_index hr hc⟩⟩, fun s ⟨hr, hv⟩ hc hin hf => ?_,
    fun s hr hct hc hin hf => ?_⟩
  · have hindex : s.code.toNat = Code.repetition3_1.index := by rw [hc]; rfl
    rw [exec_frmbld_of_index hr hindex (by simp [hin]) (by rw [hin]; exact hf), hin,
      frameOf_repetition_1 hv]
  · have hindex : s.code.toNat = Code.hamming7_4.index := by rw [hc]; rfl
    rw [exec_frmbld_of_index hr hindex (by rw [hin]; decide) (by rw [hin]; exact hf), hct, hin,
      frameOf_refTable_01101]

/-- Settles O38: header bit `i` stands at `3 i`, `3 i + 1` and `3 i + 2`, the payload from bit 96 on. -/
theorem frameLayoutIsTheWireFormat : Obligations.FrameLayoutIsTheWireFormat := by
  intro s c ⟨hr, hv⟩ hc hl hf
  have hheader : ∀ i q, i < 32 → q < 3 → bitAt (frameOf s.ct c s.inBuf) (3 * i + q) =
      bitAt (u16 s.inBuf.length ++ u16 c.index) i := fun i q hi hq => by
    rw [bitAt_frameOf_header _ _ _ (by omega), Encoder.bitAt_encode_repetition hv _ (by simpa using hi) hq]
  refine ⟨_, exec_frmbld_of_index hr hc hl hf, frameOf_length .., fun i q hi hq => ?_, fun i q hi hq => ?_,
    fun b i hb hi => ?_⟩
  · rw [hheader i q (by omega) hq, bitAt_headerFields_left _ _ hi]
  · rw [show 48 + 3 * i + q = 3 * (16 + i) + q by omega, hheader (16 + i) q (by omega) hq,
      bitAt_headerFields_right _ _ hi]
  · rw [Nat.add_assoc, Nat.add_assoc, bitAt_frameOf_payload, ← Nat.add_assoc,
      Encoder.bitAt_encode_data hv c s.inBuf hb hi]

@[simp] theorem fault_outFault_zero (s : State) (v : Bits) : (outFault s v 0).fault = 0 := by
  rw [← State.setOut_setFault_eq, State.setFault_fault, FaultCode.number]

/-- Settles O39: the header that HDRBLD builds from `LEN = |IN|` is the one FRMBLD builds. -/
theorem frmbldEqualsItsParts : Obligations.FrmbldEqualsItsParts := by
  intro s hr hcode hl hcap
  obtain ⟨c, hc⟩ := Code.exists_index_eq hcode
  have hfits : ∀ m, Fits s m := fun m cap h => by simp [hcap] at h
  have hlen : (BitVec.ofNat 32 s.inBuf.length).toNat = s.inBuf.length :=
    (BitVec.toNat_ofNat ..).trans (Nat.mod_eq_of_lt (by omega))
  have hbuild := exec_hdrbld_of_range (s := s.setLen (BitVec.ofNat 32 s.inBuf.length)) hr hc
    (hlen.trans_le hl) (hfits 32)
  rw [State.setLen_len, hlen] at hbuild
  refine ⟨_, _, _, _, hbuild, exec_hdrenc_of_length (by simpa using hr) (by simp) (hfits 96),
    exec_encode_of_index hr hc (hfits _), exec_frmbld_of_index hr hc hl (hfits _), ?_, by simp, by simp,
    by simp, by simp⟩
  simp [frameOf]

end Sys2Proof.Machine

/-! SUPPORT. The statements on FRMPRS (45_frame_parser.md): line by line (R181), on every frame, and the round
trip with FRMBLD (R185), with the lemmas they rest on. -/

namespace Sys2Proof.Machine

open Sys2Proof.Claim

/-! ### The command FRMPRS -/

/-- FRMPRS after its header has been read (45_frame_parser.md R181). -/
theorem outResult_frmprs_of_header {s : State} {len : Nat} {c : Code} (hl : 96 ≤ s.inBuf.length)
    (hh : HeaderCodec.decodeHeader s.ct (slice s.inBuf 0 96) = .ok (len, c)) :
    outResult .frmprs s =
      Decoder.decode s.ct c (slice s.inBuf 96 s.inBuf.length) >>= FrameParser.cut len := by
  rw [outResult, State.headerRegion_eq_slice hl, State.payloadRegion_eq_slice hl]
  simp only [bind, Except.bind, hh]

/-- FRMPRS faults under exactly the conditions of R181 (45_frame_parser.md). -/
theorem exec_frmprs_of_raises {s : State} {f : RaisedFault} (hr : s.ready = true)
    (h : Raises .frmprs s f) : exec .frmprs s = .next (outFault s [] f.number.toNat) := by
  refine exec_of_outResult_error hr (by decide) (by decide) (header_bind_eq_error.mpr ?_)
  simpa only [Raises, RaisesInPayload, Except.bind_eq_error, FrameParser.cut_eq_error] using h

theorem FrameParser.cut_of_le {len : Nat} {d : Bits} (h : len ≤ d.length) :
    FrameParser.cut len d = .ok (slice d 0 len) := if_neg (Nat.not_lt.mpr h)

/-- FRMPRS when the header and the payload decode, with at least as many bits as the header says
(45_frame_parser.md R181). -/
theorem exec_frmprs_of_ok {s : State} {len : Nat} {c : Code} {d : Bits} (hr : s.ready = true)
    (hl : 96 ≤ s.inBuf.length) (hh : HeaderCodec.decodeHeader s.ct (slice s.inBuf 0 96) = .ok (len, c))
    (hd : Decoder.decode s.ct c (slice s.inBuf 96 s.inBuf.length) = .ok d) (hlen : len ≤ d.length)
    (hf : Fits s len) : exec .frmprs s = .next (outFault s (slice d 0 len) 0) := by
  refine exec_of_outResult_ok hr (by decide) (by decide) ?_ (by rwa [slice_length_of_le hlen])
  rw [outResult_frmprs_of_header hl hh, hd]
  exact FrameParser.cut_of_le hlen

/-- FRMPRS when the payload does not decode (45_frame_parser.md R181). -/
theorem exec_frmprs_of_payload_error {s : State} {len : Nat} {c : Code} {f : RaisedFault}
    (hr : s.ready = true) (hl : 96 ≤ s.inBuf.length)
    (hh : HeaderCodec.decodeHeader s.ct (slice s.inBuf 0 96) = .ok (len, c))
    (hd : Decoder.decode s.ct c (slice s.inBuf 96 s.inBuf.length) = .error f) :
    exec .frmprs s = .next (outFault s [] f.number.toNat) := by
  rw [← State.payloadRegion_eq_slice hl] at hd
  exact exec_frmprs_of_raises hr (.inr ⟨hl, len, c, hh, .inl hd⟩)

/-- FRMPRS when the payload is shorter than the header says (45_frame_parser.md R181, decision D15). -/
theorem exec_frmprs_of_short_payload {s : State} {len : Nat} {c : Code} {d : Bits} (hr : s.ready = true)
    (hl : 96 ≤ s.inBuf.length) (hh : HeaderCodec.decodeHeader s.ct (slice s.inBuf 0 96) = .ok (len, c))
    (hd : Decoder.decode s.ct c (slice s.inBuf 96 s.inBuf.length) = .ok d) (hlen : d.length < len) :
    exec .frmprs s = .next (outFault s [] 5) := by
  rw [← State.payloadRegion_eq_slice hl] at hd
  exact exec_frmprs_of_raises (f := .frameTruncated) hr (.inr ⟨hl, len, c, hh, .inr ⟨d, hd, rfl, hlen⟩⟩)

/-- The first example of 45_frame_parser.md R181: one bit under code 0, the middle one of its three
flipped. -/
theorem exec_frmprs_repetition_101 {s : State} (hs : s.Usable) (hf : Fits s 1)
    (hin : s.inBuf = zeros 45 ++ [true, true, true] ++ zeros 48 ++ [true, false, true]) :
    exec .frmprs s = .next (outFault s [true] 0) := by
  obtain ⟨hr, hv⟩ := hs
  have hl : s.inBuf.length = 99 := by rw [hin]; rfl
  have hheader : slice s.inBuf 0 96 = Encoder.encode s.ct .repetition3_1 (u16 1 ++ u16 0) := by
    rw [hin, Encoder.encode_repetition_eq hv]; decide
  have hpayload : slice s.inBuf 96 s.inBuf.length = [true, false, true] := by rw [hl, hin]; decide
  refine exec_frmprs_of_ok (len := 1) (c := .repetition3_1) (d := [true]) hr (by omega) ?_ ?_ le_rfl hf
  · rw [hheader]
    exact HeaderCodec.decodeHeader_of_oneFlipPer hv (by decide) (encode_header_length ..)
      fun b _ => (differences_self ..).trans_le (Nat.zero_le 1)
  · rw [hpayload, Decoder.decode_repetition hv (m := 1) rfl]; rfl

/-- The second example of 45_frame_parser.md R181, the frame of V-S4. -/
theorem exec_frmprs_refTable_01101 {s : State} (hr : s.ready = true) (hct : s.ct = refTable)
    (hf : Fits s 5) (hin : s.inBuf = exampleHeader ++ row 14 0b11001101101000) :
    exec .frmprs s = .next (outFault s (row 5 0b01101) 0) := by
  have hl : s.inBuf.length = 110 := by rw [hin]; rfl
  have hheader : slice s.inBuf 0 96 = exampleHeader := by rw [hin]; decide
  have hpayload : slice s.inBuf 96 s.inBuf.length = row 14 0b11001101101000 := by rw [hl, hin]; decide
  have hd : Decoder.decode s.ct .hamming7_4 (slice s.inBuf 96 s.inBuf.length) = .ok (row 8 0b01101000) := by
    rw [hpayload, hct]; decide
  refine exec_frmprs_of_ok hr (by omega) ?_ hd (by decide) hf
  rw [hheader, hct, ← Encoder.encode_exampleFields CodeTable.valid_refTable, row_eq_exampleFields]
  exact HeaderCodec.decodeHeader_of_oneFlipPer CodeTable.valid_refTable (by decide) (encode_header_length ..)
    fun b _ => (differences_self ..).trans_le (Nat.zero_le 1)

/-- Settles O51: the length of `IN`, the header, the payload and its length, in this order. -/
theorem frmprsFollowsItsChecks : Obligations.FrmprsFollowsItsChecks := by
  refine ⟨decode_encode .frmprs, fun s hr => ⟨fun hl => ?_, fun hl => ⟨fun f hf => ?_, fun len c hh =>
    ⟨fun f => exec_frmprs_of_payload_error hr hl hh, fun d hd =>
      ⟨exec_frmprs_of_short_payload hr hl hh hd, exec_frmprs_of_ok hr hl hh hd⟩⟩⟩⟩,
    fun s hs hf => exec_frmprs_repetition_101 hs hf, fun s hr hct hf => exec_frmprs_refTable_01101 hr hct hf⟩
  · exact exec_frmprs_of_raises (f := .frameTruncated) hr (.inl (.inl ⟨rfl, hl⟩))
  · exact exec_frmprs_of_raises hr (.inl (.inr ⟨hl, hf⟩))

/-! ### Every frame -/

theorem slice_to_end (e : Bits) (a : Nat) : slice e a e.length = e.drop a :=
  List.take_of_length_le (List.length_drop ..).le

theorem slice_zero_eq_take (e : Bits) (m : Nat) : slice e 0 m = e.take m := rfl

/-- Settles O52: the header is decoded by majority, and a payload that tiles decodes to the data whose
codewords are next to it. -/
theorem frmprsOnEveryFrame : Obligations.FrmprsOnEveryFrame := by
  refine fun s ⟨hr, hv⟩ hl => ⟨fun hc => ?_, fun c hc => ?_⟩
  · exact exec_frmprs_of_raises (f := .headerCorrupt) hr
      (.inl (.inr ⟨hl, HeaderCodec.decodeHeader_firstBits_error hv hl hc⟩))
  have hh := HeaderCodec.decodeHeader_firstBits_ok hv hl hc
  have hlen : (s.inBuf.drop 96).length = s.inBuf.length - 96 := List.length_drop ..
  refine ⟨fun hm => ?_, fun hm => ?_⟩
  · refine exec_frmprs_of_payload_error (f := .frameTruncated) hr hl hh (Decoder.decode_of_mod_ne ?_)
    rwa [slice_to_end, hlen]
  have htile : (s.inBuf.drop 96).length = c.n * ((s.inBuf.length - 96) / c.n) :=
    hlen.trans (Nat.mul_div_cancel' (Nat.dvd_of_mod_eq_zero hm)).symm
  obtain ⟨d, hd, hnear⟩ := Decoder.exists_nearest hv htile
  have hdecode : Decoder.decode s.ct c (slice s.inBuf 96 s.inBuf.length) = .ok d := by
    rw [slice_to_end]; exact Decoder.decode_of_nearest hv htile hd hnear
  refine ⟨fun hshort => ?_, fun hlong hf => ⟨d, ?_, hd, hnear⟩⟩
  · exact exec_frmprs_of_short_payload hr hl hh hdecode (hd.trans_lt hshort)
  · rw [exec_frmprs_of_ok hr hl hh hdecode (hlong.trans_eq hd.symm) hf, slice_zero_eq_take]

/-! ### The round trip -/

/-- Differences in a window depend on the bits of the window alone. -/
theorem differences_congr {x y x' y' : Bits} {a a' w : Nat}
    (hx : ∀ i, i < w → bitAt x (a + i) = bitAt x' (a' + i))
    (hy : ∀ i, i < w → bitAt y (a + i) = bitAt y' (a' + i)) :
    differences x y a w = differences x' y' a' w := by
  refine congrArg Finset.card (Finset.filter_congr fun i hi => ?_)
  rw [hx i (Finset.mem_range.mp hi), hy i (Finset.mem_range.mp hi)]

/-- The header groups of a received frame, at most one flip in each. -/
theorem oneFlipPer_header {t : CodeTable} {c : Code} {d e : Bits}
    (hf : OneFlipPer (frameOf t c d) e 0 3 32) :
    OneFlipPer (Encoder.encode t .repetition3_1 (u16 d.length ++ u16 c.index)) (slice e 0 96) 0 3 32 := by
  intro b hb
  rw [differences_congr (x' := frameOf t c d) (y' := e) (a' := 0 + b * 3) (fun i hi => ?_) fun i hi => ?_]
  · exact hf b hb
  · rw [bitAt_frameOf_header t c d (by omega)]
  · rw [bitAt_slice, if_pos (by omega), Nat.zero_add]

/-- The payload codewords of a received frame, at most one flip in each. -/
theorem oneFlipPer_payload {t : CodeTable} {c : Code} {d e : Bits} {m : Nat}
    (hf : OneFlipPer (frameOf t c d) e 96 c.n m) :
    OneFlipPer (Encoder.encode t c d) (e.drop 96) 0 c.n m := by
  intro b hb
  rw [differences_congr (x' := frameOf t c d) (y' := e) (a' := 96 + b * c.n) (fun i _ => ?_) fun i _ => ?_]
  · exact hf b hb
  · rw [Nat.zero_add, Nat.add_assoc, bitAt_frameOf_payload]
  · rw [bitAt_drop, Nat.zero_add, Nat.add_assoc]

theorem Encoder.slice_pad (c : Code) (d : Bits) : slice (Encoder.pad c d) 0 d.length = d :=
  List.take_left' rfl

/-- FRMPRS on a frame with at most one flip in each header group and in each codeword
(45_frame_parser.md R185). -/
theorem exec_frmprs_of_oneFlipPer {s : State} {c : Code} {d : Bits} (hs : s.Usable) (hd : d.length ≤ 65535)
    (hf : Fits s d.length) (hl : s.inBuf.length = (frameOf s.ct c d).length)
    (hheader : OneFlipPer (frameOf s.ct c d) s.inBuf 0 3 32)
    (hpayload : OneFlipPer (frameOf s.ct c d) s.inBuf 96 c.n (ceilDiv d.length c.k)) :
    exec .frmprs s = .next (outFault s d 0) := by
  obtain ⟨hr, hv⟩ := hs
  rw [frameOf_length] at hl
  have h96 : 96 ≤ s.inBuf.length := by omega
  have hh : HeaderCodec.decodeHeader s.ct (slice s.inBuf 0 96) = .ok (d.length, c) :=
    HeaderCodec.decodeHeader_of_oneFlipPer hv hd (slice_length_of_le h96) (oneFlipPer_header hheader)
  have hp : Decoder.decode s.ct c (slice s.inBuf 96 s.inBuf.length) = .ok (Encoder.pad c d) := by
    rw [slice_to_end]
    exact Decoder.decode_of_oneFlipPer hv (by rw [List.length_drop]; omega) (oneFlipPer_payload hpayload)
  have hlong : d.length ≤ (Encoder.pad c d).length := by
    rw [Encoder.length_pad_eq_add]; exact Nat.le_add_right _ _
  rw [exec_frmprs_of_ok hr h96 hh hp hlong hf, Encoder.slice_pad]

/-- Settles O53: the header gives back length and code, and the payload the padded data, of which the header's
length takes the data. -/
theorem frameRoundTripUnderOneFlipPerBlock : Obligations.FrameRoundTripUnderOneFlipPerBlock := by
  intro s c ⟨hr, _⟩ hc hl hf
  refine ⟨_, exec_frmbld_of_index hr hc hl hf, fault_outFault_zero _ _, fun s₂ hs₂ hct hf₂ hlen hh hp => ?_⟩
  rw [outBuf_outFault, ← hct] at hlen hh hp
  exact exec_frmprs_of_oneFlipPer hs₂ hl hf₂ hlen hh hp

end Sys2Proof.Machine
